-- ==== Sys2Proof/Word.lean ====
section
/-! DEFINITION. The word types of the machine: the 8-bit byte of `V`, `DT`, `ST` and `MEM` (R20, R25, R26), the 16-bit
word of `I`, `PC`, the call stack and an instruction (R22, R23, R24, R70), and the register number (R20). -/

namespace Sys2Proof

/-- 8 bits, unsigned (R6, R110). -/
abbrev Byte := BitVec 8

/-- 16 bits, unsigned (R6). -/
abbrev Word := BitVec 16

/-- A register number 0..15: the value of an `X` or `Y` field; every one names a register (R20). Key codes 0..15 use the
same type (R28, R163). -/
abbrev Reg := Fin 16

end Sys2Proof
end

