-- ==== Sys2Proof/Syntax.lean ====
section
/-! DEFINITION. The instructions: one constructor for each of the 35 rows of spec/opcode_table.json, in the table's order
(R76, and the sentinel `HALT` of R77). Operands are typed by their field: `X` and `Y` are register numbers, `NNN` has 12
bits, `NN` 8, `N` 4 (R72, R73, R74). -/

namespace Sys2Proof

inductive Instr where
  /-- 0000 `HALT`, the end-of-program sentinel (R77, R92). -/
  | halt
  /-- 00E0 `CLS` (R141). -/
  | cls
  /-- 00EE `RET` (R100). -/
  | ret
  /-- 1NNN `JP nnn` (R101). -/
  | jp (nnn : BitVec 12)
  /-- 2NNN `CALL nnn` (R102). -/
  | call (nnn : BitVec 12)
  /-- 3XNN `SE Vx, nn` (R103). -/
  | seVxNn (x : Reg) (nn : BitVec 8)
  /-- 4XNN `SNE Vx, nn` (R104). -/
  | sneVxNn (x : Reg) (nn : BitVec 8)
  /-- 5XY0 `SE Vx, Vy` (R105). -/
  | seVxVy (x y : Reg)
  /-- 6XNN `LD Vx, nn` (R112). -/
  | ldVxNn (x : Reg) (nn : BitVec 8)
  /-- 7XNN `ADD Vx, nn` (R113). -/
  | addVxNn (x : Reg) (nn : BitVec 8)
  /-- 8XY0 `LD Vx, Vy` (R114). -/
  | ldVxVy (x y : Reg)
  /-- 8XY1 `OR Vx, Vy` (R115). -/
  | orVxVy (x y : Reg)
  /-- 8XY2 `AND Vx, Vy` (R116). -/
  | andVxVy (x y : Reg)
  /-- 8XY3 `XOR Vx, Vy` (R117). -/
  | xorVxVy (x y : Reg)
  /-- 8XY4 `ADD Vx, Vy` (R118). -/
  | addVxVy (x y : Reg)
  /-- 8XY5 `SUB Vx, Vy` (R119). -/
  | sub (x y : Reg)
  /-- 8XY6 `SHR Vx, Vy` (R120). -/
  | shr (x y : Reg)
  /-- 8XY7 `SUBN Vx, Vy` (R121). -/
  | subn (x y : Reg)
  /-- 8XYE `SHL Vx, Vy` (R122). -/
  | shl (x y : Reg)
  /-- 9XY0 `SNE Vx, Vy` (R106). -/
  | sneVxVy (x y : Reg)
  /-- ANNN `LD I, nnn` (R130). -/
  | ldINnn (nnn : BitVec 12)
  /-- BNNN `JP V0, nnn` (R107). -/
  | jpV0Nnn (nnn : BitVec 12)
  /-- CXNN `RND Vx, nn` (R123). -/
  | rnd (x : Reg) (nn : BitVec 8)
  /-- DXYN `DRW Vx, Vy, n` (R142). -/
  | drw (x y : Reg) (n : BitVec 4)
  /-- EX9E `SKP Vx` (R153). -/
  | skp (x : Reg)
  /-- EXA1 `SKNP Vx` (R154). -/
  | sknp (x : Reg)
  /-- FX07 `LD Vx, DT` (R150). -/
  | ldVxDt (x : Reg)
  /-- FX0A `LD Vx, K` (R155). -/
  | ldVxK (x : Reg)
  /-- FX15 `LD DT, Vx` (R151). -/
  | ldDtVx (x : Reg)
  /-- FX18 `LD ST, Vx` (R152). -/
  | ldStVx (x : Reg)
  /-- FX1E `ADD I, Vx` (R131). -/
  | addIVx (x : Reg)
  /-- FX29 `LD F, Vx` (R132). -/
  | ldFVx (x : Reg)
  /-- FX33 `LD B, Vx` (R133). -/
  | ldBVx (x : Reg)
  /-- FX55 `LD [I], Vx` (R134). -/
  | ldMemVx (x : Reg)
  /-- FX65 `LD Vx, [I]` (R135). -/
  | ldVxMem (x : Reg)
deriving DecidableEq, Repr

/-- The mnemonic of the instruction's row in spec/opcode_table.json. -/
def Instr.mnemonic : Instr → String
  | .halt => "HALT"
  | .cls => "CLS"
  | .ret => "RET"
  | .jp _ => "JP"
  | .call _ => "CALL"
  | .seVxNn _ _ => "SE_VX_NN"
  | .sneVxNn _ _ => "SNE_VX_NN"
  | .seVxVy _ _ => "SE_VX_VY"
  | .ldVxNn _ _ => "LD_VX_NN"
  | .addVxNn _ _ => "ADD_VX_NN"
  | .ldVxVy _ _ => "LD_VX_VY"
  | .orVxVy _ _ => "OR"
  | .andVxVy _ _ => "AND"
  | .xorVxVy _ _ => "XOR"
  | .addVxVy _ _ => "ADD_VX_VY"
  | .sub _ _ => "SUB"
  | .shr _ _ => "SHR"
  | .subn _ _ => "SUBN"
  | .shl _ _ => "SHL"
  | .sneVxVy _ _ => "SNE_VX_VY"
  | .ldINnn _ => "LD_I_NNN"
  | .jpV0Nnn _ => "JP_V0_NNN"
  | .rnd _ _ => "RND"
  | .drw _ _ _ => "DRW"
  | .skp _ => "SKP"
  | .sknp _ => "SKNP"
  | .ldVxDt _ => "LD_VX_DT"
  | .ldVxK _ => "LD_VX_K"
  | .ldDtVx _ => "LD_DT_VX"
  | .ldStVx _ => "LD_ST_VX"
  | .addIVx _ => "ADD_I_VX"
  | .ldFVx _ => "LD_F_VX"
  | .ldBVx _ => "LD_B_VX"
  | .ldMemVx _ => "LD_MEM_VX"
  | .ldVxMem _ => "LD_VX_MEM"

end Sys2Proof
end

