-- ==== Sys2Proof/WellFormed.lean ====
section
/-! DEFINITION. Well-formedness. An instruction has no ill-formed term: each operand is typed by the width of its field, and
the spec rules out no value and no combination of values of a field (R20 "any 4-bit field value names a valid register", R74).
What can be ill-formed is an opcode table: R75 asks that a row's code lie inside its mask and that the rows exclude each
other, R77 that no row match the all-zero sentinel. -/

namespace Sys2Proof

/-- R20, R74: every instruction is well-formed, by its type (notes/assumptions/12.md). -/
def Instr.wellFormed (_ : Instr) : Bool := true

/-- R75: the bits of a row's opcode value all lie in its opcode mask, so that some word matches it. -/
def rowInMask (code mask : Word) : Bool := code &&& mask == code

/-- R77 "every row of rule R76 has a non-zero `match`": the all-zero word does not match the row. -/
def rowNotSentinel (code mask : Word) : Bool := (0 : Word) &&& mask != code

/-- R75 "families are mutually exclusive": two rows differ on a bit that both fix, so no word matches both. -/
def rowsExclusive (r q : Word × Word) : Bool := (r.1 ^^^ q.1) &&& r.2 &&& q.2 != 0

/-- The three checks on a whole table of (opcode value, opcode mask) pairs. -/
def tableWellFormed : List (Word × Word) → Bool
  | [] => true
  | r :: rs => rowInMask r.1 r.2 && rowNotSentinel r.1 r.2 && rs.all (rowsExclusive r) && tableWellFormed rs

end Sys2Proof
end

