-- ==== Sys2Proof/Decode.lean ====
section
/-! DEFINITION. The decoder (R70 to R82): the fields of a word (R72), the opcode table as data (R76) with the mask-and-match
dispatch (R75), the sentinel (R77), the unknown words rejected by name (R78), and after it the encoder, written from the
formats of R73. -/

namespace Sys2Proof

/-! ## The fields of a word (R72) -/

/-- `hi`, bits 15:8. -/
def fieldHi (w : Word) : Byte := w.extractLsb' 8 8

/-- `lo`, bits 7:0. -/
def fieldLo (w : Word) : Byte := w.extractLsb' 0 8

/-- `OP`, bits 15:12. -/
def fieldOp (w : Word) : BitVec 4 := w.extractLsb' 12 4

/-- `NNN`, bits 11:0. -/
def fieldNNN (w : Word) : BitVec 12 := w.extractLsb' 0 12

/-- `NN`, bits 7:0. -/
def fieldNN (w : Word) : BitVec 8 := w.extractLsb' 0 8

/-- `N`, bits 3:0. -/
def fieldN (w : Word) : BitVec 4 := w.extractLsb' 0 4

/-- The register number that a 4-bit field holds (R20, R74). -/
def regOfBits (b : BitVec 4) : Reg := ⟨b.toNat, b.isLt⟩

/-- `X`, bits 11:8. -/
def fieldX (w : Word) : Reg := regOfBits (w.extractLsb' 8 4)

/-- `Y`, bits 7:4. -/
def fieldY (w : Word) : Reg := regOfBits (w.extractLsb' 4 4)

/-! ## The opcode table (R76) and the dispatch (R75) -/

/-- One row of R76: the mnemonic, the opcode value (`match`), the opcode mask, and the instruction that a word selecting
the row stands for, read from the word's fields. -/
structure OpRow where
  mnemonic : String
  code : Word
  mask : Word
  make : Word → Instr

/-- Rows 1 to 9, 19 to 23 of R76: the formats Z, A, XI and XYN, and the two register skips of format XY. -/
def opRowsPlain : List OpRow :=
  [ ⟨"CLS", 0x00E0, 0xFFFF, fun _ => .cls⟩,
    ⟨"RET", 0x00EE, 0xFFFF, fun _ => .ret⟩,
    ⟨"JP", 0x1000, 0xF000, fun w => .jp (fieldNNN w)⟩,
    ⟨"CALL", 0x2000, 0xF000, fun w => .call (fieldNNN w)⟩,
    ⟨"SE_VX_NN", 0x3000, 0xF000, fun w => .seVxNn (fieldX w) (fieldNN w)⟩,
    ⟨"SNE_VX_NN", 0x4000, 0xF000, fun w => .sneVxNn (fieldX w) (fieldNN w)⟩,
    ⟨"SE_VX_VY", 0x5000, 0xF00F, fun w => .seVxVy (fieldX w) (fieldY w)⟩,
    ⟨"LD_VX_NN", 0x6000, 0xF000, fun w => .ldVxNn (fieldX w) (fieldNN w)⟩,
    ⟨"ADD_VX_NN", 0x7000, 0xF000, fun w => .addVxNn (fieldX w) (fieldNN w)⟩,
    ⟨"SNE_VX_VY", 0x9000, 0xF00F, fun w => .sneVxVy (fieldX w) (fieldY w)⟩,
    ⟨"LD_I_NNN", 0xA000, 0xF000, fun w => .ldINnn (fieldNNN w)⟩,
    ⟨"JP_V0_NNN", 0xB000, 0xF000, fun w => .jpV0Nnn (fieldNNN w)⟩,
    ⟨"RND", 0xC000, 0xF000, fun w => .rnd (fieldX w) (fieldNN w)⟩,
    ⟨"DRW", 0xD000, 0xF000, fun w => .drw (fieldX w) (fieldY w) (fieldN w)⟩ ]

/-- Rows 10 to 18 of R76: the nine 8XY- instructions of format XY. -/
def opRowsAlu : List OpRow :=
  [ ⟨"LD_VX_VY", 0x8000, 0xF00F, fun w => .ldVxVy (fieldX w) (fieldY w)⟩,
    ⟨"OR", 0x8001, 0xF00F, fun w => .orVxVy (fieldX w) (fieldY w)⟩,
    ⟨"AND", 0x8002, 0xF00F, fun w => .andVxVy (fieldX w) (fieldY w)⟩,
    ⟨"XOR", 0x8003, 0xF00F, fun w => .xorVxVy (fieldX w) (fieldY w)⟩,
    ⟨"ADD_VX_VY", 0x8004, 0xF00F, fun w => .addVxVy (fieldX w) (fieldY w)⟩,
    ⟨"SUB", 0x8005, 0xF00F, fun w => .sub (fieldX w) (fieldY w)⟩,
    ⟨"SHR", 0x8006, 0xF00F, fun w => .shr (fieldX w) (fieldY w)⟩,
    ⟨"SUBN", 0x8007, 0xF00F, fun w => .subn (fieldX w) (fieldY w)⟩,
    ⟨"SHL", 0x800E, 0xF00F, fun w => .shl (fieldX w) (fieldY w)⟩ ]

/-- Rows 24 to 34 of R76: the two EX-- and the nine FX-- instructions of format X. -/
def opRowsX : List OpRow :=
  [ ⟨"SKP", 0xE09E, 0xF0FF, fun w => .skp (fieldX w)⟩,
    ⟨"SKNP", 0xE0A1, 0xF0FF, fun w => .sknp (fieldX w)⟩,
    ⟨"LD_VX_DT", 0xF007, 0xF0FF, fun w => .ldVxDt (fieldX w)⟩,
    ⟨"LD_VX_K", 0xF00A, 0xF0FF, fun w => .ldVxK (fieldX w)⟩,
    ⟨"LD_DT_VX", 0xF015, 0xF0FF, fun w => .ldDtVx (fieldX w)⟩,
    ⟨"LD_ST_VX", 0xF018, 0xF0FF, fun w => .ldStVx (fieldX w)⟩,
    ⟨"ADD_I_VX", 0xF01E, 0xF0FF, fun w => .addIVx (fieldX w)⟩,
    ⟨"LD_F_VX", 0xF029, 0xF0FF, fun w => .ldFVx (fieldX w)⟩,
    ⟨"LD_B_VX", 0xF033, 0xF0FF, fun w => .ldBVx (fieldX w)⟩,
    ⟨"LD_MEM_VX", 0xF055, 0xF0FF, fun w => .ldMemVx (fieldX w)⟩,
    ⟨"LD_VX_MEM", 0xF065, 0xF0FF, fun w => .ldVxMem (fieldX w)⟩ ]

/-- The 34 rows of R76 (PRESUMED by the spec: its G1, D1; notes/assumptions/1.md). Their order does not matter (R75). -/
def opTable : List OpRow := opRowsPlain ++ opRowsAlu ++ opRowsX

/-- R75: "(fetched_value AND opcode_mask) == opcode_value". -/
def OpRow.selects (r : OpRow) (w : Word) : Bool := w &&& r.mask == r.code

/-- R75: the "parameter mask", the complement of the opcode mask: the row's operand bits. -/
def OpRow.parameterMask (r : OpRow) : Word := ~~~r.mask

/-- What a word decodes to (R82): an instruction (the sentinel `HALT` among them) or `Unknown(w)`. -/
inductive Decoded where
  | instr (i : Instr)
  | unknown (w : Word)
deriving DecidableEq, Repr

/-- R77 then R75, on a given table: the all-zero word is tested before the table; otherwise the row that the word selects; a word
that selects no row is an unknown opcode (R78). -/
def decodeWith (rows : List OpRow) (w : Word) : Decoded :=
  if w = 0 then .instr .halt
  else match rows.find? (fun r => r.selects w) with
    | some r => .instr (r.make w)
    | none => .unknown w

/-- The decoder, on the table of R76: a pure function of the 16 bits (R79). -/
def decodeWord (w : Word) : Decoded := decodeWith opTable w

/-- R54, R71: the byte at the lower address is bits 15:8, the next one bits 7:0. -/
def wordOfBytes (hi lo : Byte) : Word := (hi ++ lo).setWidth 16

/-- Why bytes are rejected: no row matches their word (R78), or fewer than the two bytes of R70 are there. -/
inductive DecodeError where
  | unknownOpcode (w : Word)
  | truncated
deriving DecidableEq, Repr

/-- The decoder on bytes: the instruction at their front, and the bytes after it (R70: always two are consumed). -/
def decodeBytes : List Byte → Except DecodeError (Instr × List Byte)
  | hi :: lo :: rest =>
    match decodeWord (wordOfBytes hi lo) with
    | .instr i => .ok (i, rest)
    | .unknown w => .error (.unknownOpcode w)
  | _ => .error .truncated

/-- The word that spec/opcode_table.json numbers: one 16-bit word (R70), of which the bits above `nbits` are 0. -/
def tableWord (nbits w : Nat) : Word := BitVec.ofNat 16 (w % 2 ^ nbits)

/-- The bytes of a word as memory holds them, the first at the lower address (R54). -/
def bytesOfWord (w : Word) : List Byte := [fieldHi w, fieldLo w]

/-- The instruction that the decoder reads from a row's word of the opcode table. -/
def decodeTableWord (nbits w : Nat) : Option Instr :=
  match decodeBytes (bytesOfWord (tableWord nbits w)) with
  | .ok (i, _) => some i
  | .error _ => none

/-! ## The encoder (R73) -/

/-- The 4 bits of a register number. -/
def bitsOfReg (x : Reg) : BitVec 4 := BitVec.ofNat 4 x.val

/-- Format A: `oooo nnnn nnnn nnnn`. -/
def formatA (op : BitVec 4) (nnn : BitVec 12) : Word := (op ++ nnn).setWidth 16

/-- Format XI: `oooo xxxx nnnn nnnn`. -/
def formatXI (op : BitVec 4) (x : Reg) (nn : BitVec 8) : Word := (op ++ (bitsOfReg x ++ nn)).setWidth 16

/-- Format XY: `oooo xxxx yyyy ssss`, and format XYN: `oooo xxxx yyyy nnnn`. -/
def formatXYN (op : BitVec 4) (x y : Reg) (n : BitVec 4) : Word := (op ++ (bitsOfReg x ++ (bitsOfReg y ++ n))).setWidth 16

/-- Format X: `oooo xxxx ssss ssss`. -/
def formatX (op : BitVec 4) (x : Reg) (s : BitVec 8) : Word := (op ++ (bitsOfReg x ++ s)).setWidth 16

/-- The word of an instruction (R73, R76, R77). -/
def encode : Instr → Word
  | .halt => 0x0000
  | .cls => 0x00E0
  | .ret => 0x00EE
  | .jp nnn => formatA 0x1 nnn
  | .call nnn => formatA 0x2 nnn
  | .seVxNn x nn => formatXI 0x3 x nn
  | .sneVxNn x nn => formatXI 0x4 x nn
  | .seVxVy x y => formatXYN 0x5 x y 0x0
  | .ldVxNn x nn => formatXI 0x6 x nn
  | .addVxNn x nn => formatXI 0x7 x nn
  | .ldVxVy x y => formatXYN 0x8 x y 0x0
  | .orVxVy x y => formatXYN 0x8 x y 0x1
  | .andVxVy x y => formatXYN 0x8 x y 0x2
  | .xorVxVy x y => formatXYN 0x8 x y 0x3
  | .addVxVy x y => formatXYN 0x8 x y 0x4
  | .sub x y => formatXYN 0x8 x y 0x5
  | .shr x y => formatXYN 0x8 x y 0x6
  | .subn x y => formatXYN 0x8 x y 0x7
  | .shl x y => formatXYN 0x8 x y 0xE
  | .sneVxVy x y => formatXYN 0x9 x y 0x0
  | .ldINnn nnn => formatA 0xA nnn
  | .jpV0Nnn nnn => formatA 0xB nnn
  | .rnd x nn => formatXI 0xC x nn
  | .drw x y n => formatXYN 0xD x y n
  | .skp x => formatX 0xE x 0x9E
  | .sknp x => formatX 0xE x 0xA1
  | .ldVxDt x => formatX 0xF x 0x07
  | .ldVxK x => formatX 0xF x 0x0A
  | .ldDtVx x => formatX 0xF x 0x15
  | .ldStVx x => formatX 0xF x 0x18
  | .addIVx x => formatX 0xF x 0x1E
  | .ldFVx x => formatX 0xF x 0x29
  | .ldBVx x => formatX 0xF x 0x33
  | .ldMemVx x => formatX 0xF x 0x55
  | .ldVxMem x => formatX 0xF x 0x65

/-- The two bytes of an instruction, the upper first (R54). -/
def encodeBytes (i : Instr) : List Byte := bytesOfWord (encode i)

end Sys2Proof
end

