-- ==== Sys2Proof/Config.lean ====
section
/-! DEFINITION. What is fixed for the machine: the fixed sizes of R4, and the random oracle of R31, which is free.
The parameters of R4 that a machine takes as arguments (`GLYPH_TABLE`, `KEY_OOB`, `STACK_LIMIT`) and the opcode table (R76) are
fields of `Parameters` in Machine/Parameters.lean. -/

namespace Sys2Proof.Config

/-- `MEM_SIZE` (R4, R50): the cells are numbered 0..4095. -/
@[simp] abbrev memSize : Nat := 4096

/-- `ENTRY` (R4, R23, R203): the reset value of `PC`. -/
@[simp] abbrev entry : Word := 0x200

/-- `IMAGE_MAX` (R4, R167): 4096 − 0x200 bytes. -/
@[simp] abbrev imageMax : Nat := 3584

/-- `FB_W` (R4, R27). -/
@[simp] abbrev fbWidth : Nat := 64

/-- `FB_H` (R4, R27). -/
@[simp] abbrev fbHeight : Nat := 32

/-- `RAND` (R4, R31, R169; notes/assumptions/3.md): the byte that the oracle gives to the n-th `RND` executed since
power-on. It has no body: nothing can be proved of its value, so a claim about `RND` holds for every draw. -/
opaque draw8 : Nat → Byte

end Sys2Proof.Config
end

