-- ==== Sys2Proof/Machine/State.lean ====
section
/-! DEFINITION. The machine's state, the tuple `(V, I, PC, STACK, DT, ST, MEM, FB, KEYS, RUN, MODE)` of 10_state.md, with one
field of the model's own for the hidden random source (R31); the state after power-on (R33, R200); the reasons a step can end
without a next state; and the status that a `step` returns (R181), which is an output and no state. -/

namespace Sys2Proof.Machine

/-- R30: the compatibility mode. -/
inductive Mode where
  | legacy
  | extended
deriving DecidableEq, Repr

/-- R29, R180: the cause of a fatal fault, as `Faulted(c)` holds it. -/
inductive FaultCause where
  /-- R182: an access outside 0..4095; `addr` is the lowest address out of bounds. -/
  | memoryFault (addr : Nat)
  /-- R183: `RET` with an empty call stack. -/
  | stackUnderflow
deriving DecidableEq, Repr

/-- R29: the run state, with the awaiting-key latch as the argument of `awaitingInput`. -/
inductive RunState where
  /-- "normal fetch/decode/execute" -/
  | ready
  /-- "blocked on a key-press instruction"; `x` is the latched target register. -/
  | awaitingInput (x : Reg)
  /-- the word 0x0000 was fetched -/
  | halted
  /-- a fatal fault was raised -/
  | faulted (c : FaultCause)
deriving DecidableEq, Repr

/-- The ways a step can stop the machine from outside the spec's own run states: none at the parameters' defaults. Every fault
that the spec names is a NEXT state with `run = .faulted c` (R185; notes/assumptions/4.md). -/
inductive Fault where
  /-- `SKP` or `SKNP` with a key code of 16..255 under the parameter value `KEY_OOB` = `fault` (R156, D13;
  notes/assumptions/7.md), raised by `skpWith` and `sknpWith`. Never at the default, `not_pressed`. Safe: the machine stops. -/
  | keyCodeOutOfRange (code : Byte)
deriving DecidableEq, Repr

/-- The reasons a step can be refused. -/
inductive Refusal where
  /-- An instruction of the opcode table that has no meaning yet, by its mnemonic; raised by an arm of `exec` only.
  No arm raises it now. Safe: the machine stops. -/
  | notModelled (mnemonic : String)
  /-- `CALL` with as many entries on the stack as the parameter `STACK_LIMIT` allows, which R102 leaves to whoever sets it;
  raised by `callWith`. Never at the spec's default, no limit (R4, D16; notes/assumptions/8.md). Safe: the machine stops. -/
  | stackLimitReached
deriving DecidableEq, Repr

/-- R26, R50: memory, as the list of the cells whose value is not the reset value, in rising order of address
(notes/assumptions/9.md). Its operations are in Machine/Ops.lean. -/
abbrev Memory := List Host.Cell

/-- R27: the pixels, 32 rows (y, top first) of 64 columns (x, left first); true is on. -/
abbrev Framebuffer := Vector (Vector Bool 64) 32

/-- The architectural state. Nothing else is state (R32). -/
structure State where
  /-- `V` (R20): sixteen 8-bit registers; `V[15]` is `VF`, the flag (R21). -/
  v : Vector Byte 16
  /-- `I` (R22): the address register. -/
  i : Word
  /-- `PC` (R23): the program counter. -/
  pc : Word
  /-- `STACK` (R24): the return addresses, the most recently pushed first. -/
  stack : List Word
  /-- `DT` (R25): the delay timer. -/
  dt : Byte
  /-- `ST` (R25): the sound timer. -/
  st : Byte
  /-- `MEM` (R26). -/
  mem : Memory
  /-- `FB` (R27). -/
  fb : Framebuffer
  /-- `KEYS` (R28): true while the key is held. -/
  keys : Vector Bool 16
  /-- `RUN` (R29). -/
  run : RunState
  /-- `MODE` (R30). -/
  mode : Mode
  /-- The model's own: how many bytes `RND` has drawn from the oracle since power-on (R31; notes/assumptions/3.md). -/
  draws : Nat
deriving DecidableEq, Repr

/-- R33, R200: the state after power-on. Memory lists nothing: every cell reads as its reset value (R58, R33). -/
def State.reset : State where
  v := Vector.replicate 16 0
  i := 0
  pc := Config.entry
  stack := []
  dt := 0
  st := 0
  mem := []
  fb := Vector.replicate 32 (Vector.replicate 64 false)
  keys := Vector.replicate 16 false
  run := .ready
  mode := .extended
  draws := 0

/-- R181: the status that a `step` returns to the host. An output of the transaction, not a piece of state
(notes/assumptions/5.md). -/
inductive Status where
  | continue
  | halt
  | unknownOpcode (w : Word)
  | fault (c : FaultCause)
deriving DecidableEq, Repr

/-- What an instruction's meaning answers. -/
abbrev Result := Host.Outcome State Fault Refusal

end Sys2Proof.Machine
end

