-- ==== Sys2Proof/Machine/Parameters.lean ====
section
/-! DEFINITION. The parameters that the spec leaves OPEN with a default (R4; 92_eei_decisions.md, "Open parameters in one
place"): the default of each, and `Parameters`, the argument that the machine takes them by (`stepWith`, `resetWith`,
`transactWith`). The oracle `draw8`, also open, is free and stands in Config.lean. -/

namespace Sys2Proof.Machine

/-- `GLYPH_TABLE` (R58, D2; notes/assumptions/2.md): the 16 glyphs of 5 bytes, glyph d at address 5 × d. The bytes are the
spec's default and not the source's: a claim that depends on them says so. -/
def glyphTable : List Byte :=
  [ [0xF0, 0x90, 0x90, 0x90, 0xF0], [0x20, 0x60, 0x20, 0x20, 0x70], [0xF0, 0x10, 0xF0, 0x80, 0xF0],
    [0xF0, 0x10, 0xF0, 0x10, 0xF0], [0x90, 0x90, 0xF0, 0x10, 0x10], [0xF0, 0x80, 0xF0, 0x10, 0xF0],
    [0xF0, 0x80, 0xF0, 0x90, 0xF0], [0xF0, 0x10, 0x20, 0x40, 0x40] ].flatten ++
  [ [0xF0, 0x90, 0xF0, 0x90, 0xF0], [0xF0, 0x90, 0xF0, 0x10, 0xF0], [0xF0, 0x90, 0xF0, 0x90, 0x90],
    [0xE0, 0x90, 0xE0, 0x90, 0xE0], [0xF0, 0x80, 0x80, 0x80, 0xF0], [0xE0, 0x90, 0x90, 0x90, 0xE0],
    [0xF0, 0x80, 0xF0, 0x80, 0xF0], [0xF0, 0x80, 0xF0, 0x80, 0x80] ].flatten

/-- The readings of a key code of 16..255 that D13 names. -/
inductive KeyOob where
  /-- No such key is ever pressed. -/
  | notPressed
  /-- The code is masked to 4 bits. -/
  | masked
  /-- The test faults. -/
  | fault
deriving DecidableEq, Repr

/-- `KEY_OOB` (R156, D13; notes/assumptions/7.md): the default is `not_pressed`. -/
def keyOob : KeyOob := .notPressed

/-- `STACK_LIMIT` (R4, R24, D16; notes/assumptions/8.md): the greatest number of return addresses that the stack holds; the
default is no limit. -/
def stackLimit : Option Nat := none

/-- The two orders in which an instruction that writes `VF` as a side effect can write its result and its flag (D8). -/
inductive FlagOrder where
  | resultThenFlag
  | flagThenResult
deriving DecidableEq, Repr

/-- The flag-write order (R111, D8; notes/assumptions/13.md): the result first, the flag last. -/
def flagOrder : FlagOrder := .resultThenFlag

/-- A value for each open parameter (R4; D1, D2, D8, D13, D16). It is fixed for a machine and no part of its state (R32). -/
structure Parameters where
  /-- The opcode table (D1). -/
  opcodes : List OpRow
  /-- `GLYPH_TABLE` (D2): 80 bytes. -/
  glyphTable : Vector Byte 80
  /-- `KEY_OOB` (D13). -/
  keyOob : KeyOob
  /-- `STACK_LIMIT` (D16). -/
  stackLimit : Option Nat
  /-- The flag-write order (D8). -/
  flagOrder : FlagOrder

/-- The spec's default for every parameter; `exec`, `step` and `State.reset` are the machine at this value. -/
def Parameters.default : Parameters where
  opcodes := opTable
  glyphTable := Vector.ofFn fun k => Sys2Proof.Machine.glyphTable.getD k.val 0
  keyOob := Sys2Proof.Machine.keyOob
  stackLimit := Sys2Proof.Machine.stackLimit
  flagOrder := Sys2Proof.Machine.flagOrder

end Sys2Proof.Machine
end

