-- ==== Sys2Proof/Machine/Ops.lean ====
section
/-! DEFINITION. The named operations over memory, registers and the rest of the state: the bounds-checked accesses of
20_memory.md, the fetch (R91), fault entry (R185) and the reset that leaves it (R192, R201), the call stack (R24), the
framebuffer primitives (R140). -/

namespace Sys2Proof.Machine

/-! ## Memory as data (R26, R50) -/

/-- What an address that memory does not list reads as: what the cell holds after `reset(true)` with the default `GLYPH_TABLE` at
0..79, and zero elsewhere (R33, R58, R201). Under another table a clearing reset lists its bytes (`resetCoreWith`). -/
def Memory.resetByte (a : Nat) : Byte := glyphTable.getD a 0

/-- The value of a cell. -/
def Memory.read : Memory → Nat → Byte
  | [], a => Memory.resetByte a
  | (b, w) :: m, a => if a = b then w else Memory.read m a

/-- Memory without an entry for `a`: that cell reads as its reset value. -/
def Memory.erase (m : Memory) (a : Nat) : Memory := m.filter (fun c => c.1 != a)

/-- Memory with the entry (a, v) in its place in the rising order, instead of one that `a` had. -/
def Memory.insert : Memory → Nat → Byte → Memory
  | [], a, v => [(a, v)]
  | (b, w) :: m, a, v =>
    if a < b then (a, v) :: (b, w) :: m
    else if a = b then (a, v) :: m
    else (b, w) :: Memory.insert m a v

/-- `MEM[a] <- v` for a cell 0..4095; there is no other cell. -/
def Memory.write (m : Memory) (a : Nat) (v : Byte) : Memory :=
  if a < Config.memSize then
    if v = Memory.resetByte a then m.erase a else m.insert a v
  else m

/-- The canonical form: addresses strictly rising, each a cell, and no entry equal to what an unlisted address reads as. -/
abbrev Memory.wf (m : Memory) : Prop :=
  m.Pairwise (fun c d => c.1 < d.1) ∧ ∀ c ∈ m, c.1 < Config.memSize ∧ c.2 ≠ Memory.resetByte c.1

/-! ## Registers and the other fields: one accessor, one update each -/

/-- `V[x]` (R20). -/
def getV (s : State) (x : Reg) : Byte := s.v[x.val]

/-- `V[x] <- b` (R20): every register holds what was last written to it, `VF` included. -/
def setV (x : Reg) (b : Byte) (s : State) : State := { s with v := s.v.set x.val b }

/-- `I <- a` (R22): 16 bits, never masked to 12. -/
def setI (a : Word) (s : State) : State := { s with i := a }

/-- `PC <- a` (R23). -/
def setPc (a : Word) (s : State) : State := { s with pc := a }

/-- `PC <- (PC + 2) mod 2^16` (R93, R108): the advance, and the further step of a taken skip. -/
def advancePc (s : State) : State := setPc (s.pc + 2) s

/-- `STACK` as a whole (R24). -/
def setStack (l : List Word) (s : State) : State := { s with stack := l }

/-- `DT <- b` (R25). -/
def setDt (b : Byte) (s : State) : State := { s with dt := b }

/-- `ST <- b` (R25). -/
def setSt (b : Byte) (s : State) : State := { s with st := b }

/-- `FB` as a whole (R27). -/
def setFb (f : Framebuffer) (s : State) : State := { s with fb := f }

/-- `KEYS[k] <- p` (R28). -/
def setKey (k : Reg) (p : Bool) (s : State) : State := { s with keys := s.keys.set k.val p }

/-- `RUN <- r` (R29). -/
def setRun (r : RunState) (s : State) : State := { s with run := r }

/-- `MODE <- m` (R30). -/
def setMode (m : Mode) (s : State) : State := { s with mode := m }

/-- The value of a memory cell. -/
def peek (s : State) (a : Nat) : Byte := s.mem.read a

/-- `MEM[a] <- b`, with no check. -/
def poke (a : Nat) (b : Byte) (s : State) : State := { s with mem := s.mem.write a b }

/-- `draw8()` (R31, R123, R169): the oracle's next byte, and the state that has consumed it. -/
def drawByte (s : State) : Byte × State := (Config.draw8 s.draws, { s with draws := s.draws + 1 })

/-! ## Taking a fault, and the only way out of it -/

/-- `raise F` (R185): the run state becomes `Faulted`, nothing else is written; `PC` keeps what the cycle made of it (R91, R96).
Control goes nowhere: there is no saved register, no vector and no handler. -/
def raiseFault (c : FaultCause) (s : State) : State := setRun (.faulted c) s

/-- Ends an instruction's execution: its new state, or the fault it raised, entered from the state `s` in which it began, so
that a faulting instruction has written nothing (R65, R96, R185). -/
def complete (s : State) : Except FaultCause State → Result
  | .ok t => .next t
  | .error c => .next (raiseFault c s)

/-- `reset(clear)` (R201, R33): the return from `Faulted`, `Halted` and a key wait (R192; no instruction returns from a fault).
`KEYS` and the random source are not touched, and memory only where `clear` is set (R202). -/
def resetCore (clear : Bool) (s : State) : State :=
  { State.reset with
    mem := if clear then [] else s.mem
    keys := s.keys
    draws := s.draws }

/-- `MEM[a] <- b`, … in ascending order, straight to the cells (R167, R201). -/
def pokeBytes (a : Nat) : List Byte → State → State
  | [], s => s
  | b :: bs, s => pokeBytes (a + 1) bs (poke a b s)

/-- `reset(clear)` under given parameters (R201): a clearing reset puts their `GLYPH_TABLE` at 0..79. -/
def resetCoreWith (p : Parameters) (clear : Bool) (s : State) : State :=
  if clear then pokeBytes 0 p.glyphTable.toList (resetCore true s) else resetCore false s

/-- The state after power-on under given parameters (R33, R200). -/
def resetWith (p : Parameters) : State := resetCoreWith p true State.reset

/-! ## Bounds-checked accesses (R51, R52, R65) -/

/-- `MemCheck(addr, n)` (R65): the whole range, before any access of it. -/
def memCheck (addr n : Nat) : Except FaultCause Unit :=
  if n = 0 then .ok ()
  else if addr + n - 1 ≥ Config.memSize then .error (.memoryFault (max addr Config.memSize))
  else .ok ()

/-- `MemRead(addr, 1)` (R51): never clamped, masked or reduced modulo 4096. -/
def memRead (s : State) (addr : Nat) : Except FaultCause Byte :=
  if addr < Config.memSize then .ok (peek s addr) else .error (.memoryFault addr)

/-- `MemWrite(addr, 1, b)` (R52): every cell is writable (R59). -/
def memWrite (addr : Nat) (b : Byte) (s : State) : Except FaultCause State :=
  if addr < Config.memSize then .ok (poke addr b s) else .error (.memoryFault addr)

/-- `n` reads at `addr`, `addr + 1`, … in ascending order (R56, R60). -/
def readBytes (s : State) (addr : Nat) : Nat → Except FaultCause (List Byte)
  | 0 => .ok []
  | n + 1 =>
    match memRead s addr with
    | .error c => .error c
    | .ok b =>
      match readBytes s (addr + 1) n with
      | .error c => .error c
      | .ok bs => .ok (b :: bs)

/-- Writes of the given bytes at `addr`, `addr + 1`, … in ascending order (R56, R60). -/
def writeBytes (addr : Nat) : List Byte → State → Except FaultCause State
  | [], s => .ok s
  | b :: bs, s =>
    match memWrite addr b s with
    | .error c => .error c
    | .ok t => writeBytes (addr + 1) bs t

/-- A read of `n` bytes, its whole range checked first (R65). -/
def loadRange (s : State) (addr n : Nat) : Except FaultCause (List Byte) :=
  match memCheck addr n with
  | .error c => .error c
  | .ok _ => readBytes s addr n

/-- A write of the given bytes, its whole range checked first (R65). -/
def storeRange (addr : Nat) (bs : List Byte) (s : State) : Except FaultCause State :=
  match memCheck addr bs.length with
  | .error c => .error c
  | .ok _ => writeBytes addr bs s

/-- The fetch (R91, R71): the bytes at `PC` and `PC + 1`, the range checked first, the upper byte first. -/
def fetchWord (s : State) : Except FaultCause Word :=
  match loadRange s s.pc.toNat 2 with
  | .error c => .error c
  | .ok bs => .ok (wordOfBytes (bs.getD 0 0) (bs.getD 1 0))

/-! ## The call stack (R24) -/

/-- `push(STACK, a)` (R24, R102), under a value of the parameter `STACK_LIMIT` (D16). -/
def pushStack (limit : Option Nat) (a : Word) (s : State) : Except Refusal State :=
  match limit with
  | none => .ok (setStack (a :: s.stack) s)
  | some n => if s.stack.length < n then .ok (setStack (a :: s.stack) s) else .error .stackLimitReached

/-- `pop(STACK)` (R24, R100, R183): the most recently pushed entry, or StackUnderflow. -/
def popStack (s : State) : Except FaultCause (Word × State) :=
  match s.stack with
  | [] => .error .stackUnderflow
  | a :: rest => .ok (a, setStack rest s)

/-! ## The framebuffer primitives (R140) -/

/-- `FbGet(x, y)`: off for coordinates out of range. -/
def fbGet (f : Framebuffer) (x y : Nat) : Bool :=
  if h : x < 64 ∧ y < 32 then (f[y]'h.2)[x]'h.1 else false

/-- `FbFlip(x, y)`: nothing for coordinates out of range; never wrapped, never clamped. -/
def fbFlip (x y : Nat) (f : Framebuffer) : Framebuffer :=
  if h : x < 64 ∧ y < 32 then
    f.set y ((f[y]'h.2).set x (!((f[y]'h.2)[x]'h.1)) h.1) h.2
  else f

/-- All pixels off (R141, R201). -/
def fbClear : Framebuffer := Vector.replicate 32 (Vector.replicate 64 false)

/-- One set bit of a sprite (R142): the pixel flips, and a pixel that was on is a collision. -/
def drawPixel (x y : Nat) (d : Framebuffer × Bool) : Framebuffer × Bool :=
  (fbFlip x y d.1, d.2 || fbGet d.1 x y)

/-- One row of a sprite (R142, R143): column `col` is bit 7 − `col` of the byte. -/
def drawRow (x0 y : Nat) (b : Byte) (d : Framebuffer × Bool) : Framebuffer × Bool :=
  (List.range 8).foldl (fun d col => if b.getLsbD (7 - col) then drawPixel (x0 + col) y d else d) d

/-- The rows of a sprite, the top one first (R142, R143). -/
def drawRows (x0 : Nat) : Nat → List Byte → Framebuffer × Bool → Framebuffer × Bool
  | _, [], d => d
  | y, b :: bs, d => drawRows x0 (y + 1) bs (drawRow x0 y b d)

end Sys2Proof.Machine
end

