-- ==== Sys2Proof/Machine/Operands.lean ====
section
/-! DEFINITION. The operand forms (R74, R136, R156): immediates, registers, the address register with an offset, the
register that a shift reads in each mode, a block of registers, a key code. -/

namespace Sys2Proof.Machine

/-- The flag register `VF` (R21). -/
abbrev vf : Reg := 15

/-- An address immediate: `zext_16(NNN)` (R74). -/
def addrImm (nnn : BitVec 12) : Word := nnn.setWidth 16

/-- A byte as a 16-bit value: `zext_16(b)`. -/
def zext16 (b : Byte) : Word := b.setWidth 16

/-- The key code of a key as a byte: `zext_8(k)` (R163). -/
def keyCode (k : Reg) : Byte := BitVec.ofNat 8 k.val

/-- The effective address `I + k` (R53, R136), exact: a natural number that no width cuts. -/
def effAddr (s : State) (k : Nat) : Nat := s.i.toNat + k

/-- The value that a shift reads (R120, R122): `V[y]` in Legacy mode, `V[x]` in Extended mode. -/
def shiftSource (x y : Reg) (s : State) : Byte :=
  match s.mode with
  | .legacy => getV s y
  | .extended => getV s x

/-- The block `V0`..`Vx`, lowest first (R134). -/
def regBlock (x : Reg) (s : State) : List Byte := s.v.toList.take (x.val + 1)

/-- `V[k] <- bs[0]`, `V[k + 1] <- bs[1]`, … (R135). -/
def setRegBlock : Nat → List Byte → State → State
  | _, [], s => s
  | k, b :: bs, s => setRegBlock (k + 1) bs { s with v := s.v.setIfInBounds k b }

/-- The base-register update of the block store and load (R134, R135, R136): in Legacy mode `I` moves past the block,
modulo 2^16; in Extended mode it stays. -/
def blockIncrement (x : Reg) (s : State) : State :=
  match s.mode with
  | .legacy => setI (s.i + BitVec.ofNat 16 (x.val + 1)) s
  | .extended => s

/-- The flag of the key whose code is `b` (R28), off where no key has that code. -/
def heldKey (b : Byte) (s : State) : Bool :=
  if h : b.toNat < 16 then s.keys[b.toNat] else false

/-- `pressed(b)` (R156), under a value of the parameter `KEY_OOB` (D13), which acts on the codes 16..255 only. -/
def pressed (oob : KeyOob) (b : Byte) (s : State) : Except Fault Bool :=
  match oob with
  | .notPressed => .ok (heldKey b s)
  | .masked => .ok (heldKey (b &&& 0xF) s)
  | .fault => if b.toNat < 16 then .ok (heldKey b s) else .error (.keyCodeOutOfRange b)

/-- The three decimal digits of a byte, hundreds first (R133). -/
def bcdDigits (b : Byte) : List Byte :=
  [BitVec.ofNat 8 (b.toNat / 100), BitVec.ofNat 8 (b.toNat / 10 % 10), BitVec.ofNat 8 (b.toNat % 10)]

/-- A skip (R108): when `b` holds, `PC` moves a further 2. -/
def skipIf (b : Bool) (s : State) : State := if b then advancePc s else s

end Sys2Proof.Machine
end

