-- ==== Sys2Proof/Machine/Flags.lean ====
section
/-! DEFINITION. The flag computations (R21, R110): for each instruction that writes `VF` as a side effect, its result and its
flag as a function of the operands read, and the order in which the two are written (R111). -/

namespace Sys2Proof.Machine

/-- A flag as the byte that `VF` holds: 0x01 or 0x00 (R21, D23). -/
def flagByte (b : Bool) : Byte := if b then 1 else 0

/-- `ADD Vx, Vy` (R118): the sum modulo 256, and whether the 9-bit sum exceeds 255. -/
def addCarry (a b : Byte) : Byte × Bool := (a + b, decide (a.toNat + b.toNat > 255))

/-- `SUB` and `SUBN` (R119, R121): minuend minus subtrahend modulo 256, and 1 for no borrow. -/
def subNoBorrow (minuend subtrahend : Byte) : Byte × Bool :=
  (minuend - subtrahend, decide (minuend.toNat ≥ subtrahend.toNat))

/-- `SHR` (R120): one bit to the right, 0 shifted in; the flag is bit 0 before the shift. -/
def shiftRightOut (a : Byte) : Byte × Bool := (a >>> 1, a.getLsbD 0)

/-- `SHL` (R122): one bit to the left, 0 shifted in; the flag is bit 7 before the shift. -/
def shiftLeftOut (a : Byte) : Byte × Bool := (a <<< 1, a.getLsbD 7)

/-- Steps 3 and 4 of R111, in the order that the parameter gives (D8); at the default the result goes to `V[x]` first and the flag
to `VF` last, so that the flag survives where `x` is 15. -/
def writeResultFlag (order : FlagOrder) (x : Reg) (r : Byte × Bool) (s : State) : State :=
  match order with
  | .resultThenFlag => setV vf (flagByte r.2) (setV x r.1 s)
  | .flagThenResult => setV x r.1 (setV vf (flagByte r.2) s)

end Sys2Proof.Machine
end

