-- ==== Sys2Proof/Machine/Alu.lean ====
section
/-! DEFINITION. Register arithmetic and logic (42_alu.md). None of these accesses memory or can fault. -/

namespace Sys2Proof.Machine

/-- `LD Vx, nn` (R112). -/
def execLdVxNn (x : Reg) (nn : BitVec 8) (s : State) : Result := .next (setV x nn s)

/-- `ADD Vx, nn` (R113): no carry is recorded (D9). -/
def execAddVxNn (x : Reg) (nn : BitVec 8) (s : State) : Result := .next (setV x (getV s x + nn) s)

/-- `LD Vx, Vy` (R114). -/
def execLdVxVy (x y : Reg) (s : State) : Result := .next (setV x (getV s y) s)

/-- `OR Vx, Vy` (R115): `VF` is not reset (D9). -/
def execOrVxVy (x y : Reg) (s : State) : Result := .next (setV x (getV s x ||| getV s y) s)

/-- `AND Vx, Vy` (R116). -/
def execAndVxVy (x y : Reg) (s : State) : Result := .next (setV x (getV s x &&& getV s y) s)

/-- `XOR Vx, Vy` (R117). -/
def execXorVxVy (x y : Reg) (s : State) : Result := .next (setV x (getV s x ^^^ getV s y) s)

/-! The five instructions that write a result and a flag, each under a given order of the two writes (R111, D8). -/

/-- `ADD Vx, Vy` (R118). -/
def addVxVyWith (o : FlagOrder) (x y : Reg) (s : State) : Result :=
  .next (writeResultFlag o x (addCarry (getV s x) (getV s y)) s)

/-- `SUB Vx, Vy` (R119): the minuend is `V[x]`. -/
def subWith (o : FlagOrder) (x y : Reg) (s : State) : Result :=
  .next (writeResultFlag o x (subNoBorrow (getV s x) (getV s y)) s)

/-- `SHR Vx, Vy` (R120): the source depends on the mode. -/
def shrWith (o : FlagOrder) (x y : Reg) (s : State) : Result :=
  .next (writeResultFlag o x (shiftRightOut (shiftSource x y s)) s)

/-- `SUBN Vx, Vy` (R121, G7): the minuend is `V[y]`. -/
def subnWith (o : FlagOrder) (x y : Reg) (s : State) : Result :=
  .next (writeResultFlag o x (subNoBorrow (getV s y) (getV s x)) s)

/-- `SHL Vx, Vy` (R122): the source depends on the mode. -/
def shlWith (o : FlagOrder) (x y : Reg) (s : State) : Result :=
  .next (writeResultFlag o x (shiftLeftOut (shiftSource x y s)) s)

/-- `ADD Vx, Vy` (R118), the flag written last (D8). -/
def execAddVxVy (x y : Reg) (s : State) : Result := addVxVyWith flagOrder x y s

/-- `SUB Vx, Vy` (R119), the flag written last (D8). -/
def execSub (x y : Reg) (s : State) : Result := subWith flagOrder x y s

/-- `SHR Vx, Vy` (R120), the flag written last (D8). -/
def execShr (x y : Reg) (s : State) : Result := shrWith flagOrder x y s

/-- `SUBN Vx, Vy` (R121), the flag written last (D8). -/
def execSubn (x y : Reg) (s : State) : Result := subnWith flagOrder x y s

/-- `SHL Vx, Vy` (R122), the flag written last (D8). -/
def execShl (x y : Reg) (s : State) : Result := shlWith flagOrder x y s

/-- `RND Vx, nn` (R123): one oracle byte, masked. -/
def execRnd (x : Reg) (nn : BitVec 8) (s : State) : Result := .next (setV x ((drawByte s).1 &&& nn) (drawByte s).2)

end Sys2Proof.Machine
end

