-- ==== Sys2Proof/Machine/Display.lean ====
section
/-! DEFINITION. The display instructions (44_display.md). -/

namespace Sys2Proof.Machine

/-- `CLS` (R141). -/
def execCls (s : State) : Result := .next (setFb fbClear s)

/-- `DRW Vx, Vy, n` (R142): the coordinates are read before any write, all `n` bytes are read wherever the sprite lies, and
`VF` is written last. -/
def execDrw (x y : Reg) (n : BitVec 4) (s : State) : Result :=
  complete s ((loadRange s (effAddr s 0) n.toNat).map (fun rows =>
    let d := drawRows (getV s x).toNat (getV s y).toNat rows (s.fb, false)
    setV vf (flagByte d.2) (setFb d.1 s)))

end Sys2Proof.Machine
end

