-- ==== Sys2Proof/Machine/Flow.lean ====
section
/-! DEFINITION. Control transfer (41_flow.md) and the sentinel `HALT` (R92). Every meaning but `HALT`'s begins in the state
after the cycle's advance: `PC` is the address of the instruction + 2 (R93). -/

namespace Sys2Proof.Machine

/-- `HALT` (R92): `PC` is not advanced and nothing else changes. -/
def execHalt (s : State) : Result := .next (setRun .halted s)

/-- `RET` (R100): StackUnderflow when the stack is empty (D7). -/
def execRet (s : State) : Result :=
  complete s (match popStack s with
    | .error c => .error c
    | .ok (a, t) => .ok (setPc a t))

/-- `JP nnn` (R101). -/
def execJp (nnn : BitVec 12) (s : State) : Result := .next (setPc (addrImm nnn) s)

/-- `CALL nnn` (R102) under a value of `STACK_LIMIT`: the advanced `PC` is pushed. -/
def callWith (limit : Option Nat) (nnn : BitVec 12) (s : State) : Result :=
  match pushStack limit s.pc s with
  | .error r => .refused r
  | .ok t => .next (setPc (addrImm nnn) t)

/-- `CALL nnn` (R102), with no limit on the stack (D16). -/
def execCall (nnn : BitVec 12) (s : State) : Result := callWith stackLimit nnn s

/-- `SE Vx, nn` (R103). -/
def execSeVxNn (x : Reg) (nn : BitVec 8) (s : State) : Result := .next (skipIf (getV s x == nn) s)

/-- `SNE Vx, nn` (R104). -/
def execSneVxNn (x : Reg) (nn : BitVec 8) (s : State) : Result := .next (skipIf (getV s x != nn) s)

/-- `SE Vx, Vy` (R105). -/
def execSeVxVy (x y : Reg) (s : State) : Result := .next (skipIf (getV s x == getV s y) s)

/-- `SNE Vx, Vy` (R106). -/
def execSneVxVy (x y : Reg) (s : State) : Result := .next (skipIf (getV s x != getV s y) s)

/-- `JP V0, nnn` (R107): always `V0`, in either mode; the sum is not masked. -/
def execJpV0Nnn (nnn : BitVec 12) (s : State) : Result := .next (setPc (zext16 (getV s 0) + addrImm nnn) s)

end Sys2Proof.Machine
end

