-- ==== Sys2Proof/Machine/IndexMemory.lean ====
section
/-! DEFINITION. The address register and memory instructions (43_index_memory.md). -/

namespace Sys2Proof.Machine

/-- `LD I, nnn` (R130). -/
def execLdINnn (nnn : BitVec 12) (s : State) : Result := .next (setI (addrImm nnn) s)

/-- `ADD I, Vx` (R131): modulo 2^16 (D10), `VF` not written. -/
def execAddIVx (x : Reg) (s : State) : Result := .next (setI (s.i + zext16 (getV s x)) s)

/-- `LD F, Vx` (R132): the whole byte times 5, not masked to a digit (D12). -/
def execLdFVx (x : Reg) (s : State) : Result := .next (setI (zext16 (getV s x) * 5) s)

/-- `LD B, Vx` (R133). -/
def execLdBVx (x : Reg) (s : State) : Result := complete s (storeRange (effAddr s 0) (bcdDigits (getV s x)) s)

/-- `LD [I], Vx` (R134): the bytes land at the old `I` + k in both modes. -/
def execLdMemVx (x : Reg) (s : State) : Result :=
  complete s ((storeRange (effAddr s 0) (regBlock x s) s).map (blockIncrement x))

/-- `LD Vx, [I]` (R135): `I` is read once, before the registers are written. -/
def execLdVxMem (x : Reg) (s : State) : Result :=
  complete s ((loadRange s (effAddr s 0) (x.val + 1)).map (fun bs => blockIncrement x (setRegBlock 0 bs s)))

end Sys2Proof.Machine
end

