-- ==== Sys2Proof/Machine/TimersKeys.lean ====
section
/-! DEFINITION. The timer and keypad instructions (45_timers_keys.md). -/

namespace Sys2Proof.Machine

/-- `SKP Vx` (R153, R156) under a value of `KEY_OOB`. -/
def skpWith (oob : KeyOob) (x : Reg) (s : State) : Result :=
  match pressed oob (getV s x) s with
  | .error f => .fault f
  | .ok b => .next (skipIf b s)

/-- `SKNP Vx` (R154, R156) under a value of `KEY_OOB`. -/
def sknpWith (oob : KeyOob) (x : Reg) (s : State) : Result :=
  match pressed oob (getV s x) s with
  | .error f => .fault f
  | .ok b => .next (skipIf (!b) s)

/-- `SKP Vx` (R153): a code of 16 or more is not pressed (D13). -/
def execSkp (x : Reg) (s : State) : Result := skpWith keyOob x s

/-- `SKNP Vx` (R154): a code of 16 or more is not pressed (D13). -/
def execSknp (x : Reg) (s : State) : Result := sknpWith keyOob x s

/-- `LD Vx, DT` (R150). -/
def execLdVxDt (x : Reg) (s : State) : Result := .next (setV x s.dt s)

/-- `LD Vx, K` (R155): the latch is set; a key already held does not satisfy the wait. -/
def execLdVxK (x : Reg) (s : State) : Result := .next (setRun (.awaitingInput x) s)

/-- `LD DT, Vx` (R151). -/
def execLdDtVx (x : Reg) (s : State) : Result := .next (setDt (getV s x) s)

/-- `LD ST, Vx` (R152). -/
def execLdStVx (x : Reg) (s : State) : Result := .next (setSt (getV s x) s)

end Sys2Proof.Machine
end

