-- ==== Sys2Proof/Machine/Cycle.lean ====
section
/-! DEFINITION. The instruction cycle (40_instruction_cycle.md): which of R90's cases a `step` is in, its effect, and the
status it returns (R181). -/

namespace Sys2Proof.Machine

/-- The cases of R90, decided before any effect. -/
inductive CycleCase where
  /-- `Faulted`, `Halted` or `AwaitingInput`: no state change, only a status (R97, R98). -/
  | idle (st : Status)
  /-- The fetch is out of bounds (R91). -/
  | fetchFault (c : FaultCause)
  /-- The word fetched is no instruction (R95). -/
  | unknown (w : Word)
  /-- The word fetched is an instruction, the sentinel `HALT` among them (R92, R94). -/
  | run (i : Instr)
deriving DecidableEq, Repr

/-- The meaning of an instruction under given parameters (R4): the eight that read one take it as an argument, any other is
`exec`'s. -/
def execWith (p : Parameters) (i : Instr) (s : State) : Result :=
  match i with
  | .call nnn => callWith p.stackLimit nnn s
  | .addVxVy x y => addVxVyWith p.flagOrder x y s
  | .sub x y => subWith p.flagOrder x y s
  | .shr x y => shrWith p.flagOrder x y s
  | .subn x y => subnWith p.flagOrder x y s
  | .shl x y => shlWith p.flagOrder x y s
  | .skp x => skpWith p.keyOob x s
  | .sknp x => sknpWith p.keyOob x s
  | .halt | .cls | .ret | .jp _ | .seVxNn _ _ | .sneVxNn _ _ | .seVxVy _ _ | .ldVxNn _ _ | .addVxNn _ _ | .ldVxVy _ _
  | .orVxVy _ _ | .andVxVy _ _ | .xorVxVy _ _ | .sneVxVy _ _ | .ldINnn _ | .jpV0Nnn _ | .rnd _ _ | .drw _ _ _ | .ldVxDt _
  | .ldVxK _ | .ldDtVx _ | .ldStVx _ | .addIVx _ | .ldFVx _ | .ldBVx _ | .ldMemVx _ | .ldVxMem _ => exec i s

/-- R90, in the order of R190: the run state, the fetch, the decode on a given opcode table. -/
def cycleCaseWith (rows : List OpRow) (s : State) : CycleCase :=
  match s.run with
  | .faulted c => .idle (.fault c)
  | .halted => .idle .halt
  | .awaitingInput _ => .idle .continue
  | .ready =>
    match fetchWord s with
    | .error c => .fetchFault c
    | .ok w =>
      match decodeWith rows w with
      | .unknown w => .unknown w
      | .instr i => .run i

/-- The case that a `step` from `s` is in. -/
def cycleCase (s : State) : CycleCase := cycleCaseWith opTable s

/-- The state in which an instruction executes: `PC` advanced before dispatch (R93), but not for the sentinel (R92). -/
def beforeExec (i : Instr) (s : State) : State :=
  match i with
  | .halt => s
  | _ => advancePc s

/-- The effect of a case of R90, with the given meanings of instructions. -/
def CycleCase.effect (execute : Instr → State → Result) (c : CycleCase) (s : State) : Result :=
  match c with
  | .idle _ => .next s
  | .fetchFault c => .next (raiseFault c s)
  | .unknown _ => .next (advancePc s)
  | .run i => execute i (beforeExec i s)

/-- The effect of a `step` (R90). -/
def cycle (s : State) : Result := (cycleCase s).effect exec s

/-- The effect of a `step` under given parameters. -/
def cycleWith (p : Parameters) (s : State) : Result := (cycleCaseWith p.opcodes s).effect (execWith p) s

/-- The status that goes with the run state in which an instruction leaves the core (R181, last column). -/
def statusAfter : RunState → Status
  | .ready => .continue
  | .awaitingInput _ => .continue
  | .halted => .halt
  | .faulted c => .fault c

/-- The status that goes with a case of R90, with the given meanings of instructions; none where it reaches no next state. -/
def CycleCase.status (execute : Instr → State → Result) (c : CycleCase) (s : State) : Option Status :=
  match c with
  | .idle st => some st
  | .fetchFault c => some (.fault c)
  | .unknown w => some (.unknownOpcode w)
  | .run i =>
    match execute i (beforeExec i s) with
    | .next t => some (statusAfter t.run)
    | .fault _ => none
    | .refused _ => none

/-- The status that a `step` from `s` returns (R90, R181). -/
def stepStatus (s : State) : Option Status := (cycleCase s).status exec s

/-- The status that a `step` from `s` returns under given parameters. -/
def stepStatusWith (p : Parameters) (s : State) : Option Status := (cycleCaseWith p.opcodes s).status (execWith p) s

/-- The numeric code of a status (R181, D20). -/
def Status.code : Status → Nat
  | .continue => 0
  | .halt => 1
  | .unknownOpcode _ => 2
  | .fault (.memoryFault _) => 3
  | .fault .stackUnderflow => 4

/-- The driver contract's `continue|halt` (R181): whether the driver should go on stepping. -/
def Status.goesOn : Status → Bool
  | .continue => true
  | .halt => false
  | .unknownOpcode _ => true
  | .fault _ => false

/-- Puts the core where its next `step` fetches: `Ready`, and `PC` where two bytes can be fetched (the entry point where it
could not). -/
def readyToFetch (s : State) : State :=
  setRun .ready (if s.pc.toNat + 1 < Config.memSize then s else setPc Config.entry s)

/-- Stores a word at `PC` and `PC + 1`, upper byte first (R54). -/
def placeWord (w : Word) (s : State) : State :=
  poke (s.pc.toNat + 1) (fieldLo w) (poke s.pc.toNat (fieldHi w) s)

end Sys2Proof.Machine
end

