-- ==== Sys2Proof/Machine/Step.lean ====
section
/-! DEFINITION. The `step` transaction (R90, R161) as the host's step function, and the placing of a word where the next step
fetches it (notes/assumptions/10.md). -/

namespace Sys2Proof.Machine

/-- R90. -/
def step : State → Host.Outcome State Fault Refusal := cycle

/-- R90 under given parameters (R4); `step` is its value at `Parameters.default` (`stepWith_default`). -/
def stepWith (p : Parameters) : State → Result := cycleWith p

/-- `s` with the opcode-table word `w` where `step` fetches next. -/
def State.withFetchWord (s : State) (nbits w : Nat) : State := placeWord (tableWord nbits w) (readyToFetch s)

end Sys2Proof.Machine
end

