-- ==== Sys2Proof/Machine/Transactions.lean ====
section
/-! DEFINITION. The host interface (50_interfaces.md): the transactions by which the driver, the loader and the input source
act on the core, and the read-only ports. Each is atomic and they are totally ordered (R5, R160); their order is the host's
choice and no state (R32; notes/assumptions/6.md). -/

namespace Sys2Proof.Machine

/-- A timer's decay by one `tick` (R25, R162): never below 0. -/
def decay (b : Byte) : Byte := if b = 0 then 0 else b - 1

/-- `tick` (R162): in every run state (D22). -/
def tick (s : State) : State := setSt (decay s.st) (setDt (decay s.dt) s)

/-- `key_down(k)` (R163): the flag always; a wait is released, its latched register receiving the key code. -/
def keyDown (k : Reg) (s : State) : State :=
  match s.run with
  | .awaitingInput x => setRun .ready (setV x (keyCode k) (setKey k true s))
  | _ => setKey k true s

/-- `key_up(k)` (R164). -/
def keyUp (k : Reg) (s : State) : State := setKey k false s

/-- `load(bytes)` (R167): a clearing reset, then the image from 0x200, cut at 3584 bytes. -/
def load (bytes : List Byte) (s : State) : State :=
  pokeBytes Config.entry.toNat (bytes.take Config.imageMax) (resetCore true s)

/-- `load(bytes)` under given parameters (R167). -/
def loadWith (p : Parameters) (bytes : List Byte) (s : State) : State :=
  pokeBytes Config.entry.toNat (bytes.take Config.imageMax) (resetCoreWith p true s)

/-- The transactions (R160). A `load` that fails never reaches the core (R167, R187). -/
inductive Transaction where
  | step
  | tick
  | keyDown (k : Reg)
  | keyUp (k : Reg)
  | setMode (m : Mode)
  | reset (clear : Bool)
  | load (bytes : List Byte)
deriving DecidableEq, Repr

/-- What a transaction returns (R170): a `step` its status, a `load` success, the others nothing. -/
inductive Response where
  | status (st : Status)
  | success
  | nothing
deriving DecidableEq, Repr

/-- A transaction's effect on the state. -/
def transact : Transaction → State → Result
  | .step, s => Sys2Proof.Machine.step s
  | .tick, s => .next (Sys2Proof.Machine.tick s)
  | .keyDown k, s => .next (Sys2Proof.Machine.keyDown k s)
  | .keyUp k, s => .next (Sys2Proof.Machine.keyUp k s)
  | .setMode m, s => .next (Sys2Proof.Machine.setMode m s)
  | .reset clear, s => .next (resetCore clear s)
  | .load bytes, s => .next (Sys2Proof.Machine.load bytes s)

/-- A transaction's effect under given parameters (R4): they act in `step`, `reset` and `load` only. -/
def transactWith (p : Parameters) : Transaction → State → Result
  | .step, s => stepWith p s
  | .reset clear, s => .next (resetCoreWith p clear s)
  | .load bytes, s => .next (loadWith p bytes s)
  | .tick, s => transact .tick s
  | .keyDown k, s => transact (.keyDown k) s
  | .keyUp k, s => transact (.keyUp k) s
  | .setMode m, s => transact (.setMode m) s

/-- A transaction's result, from the state in which it is issued. -/
def response : Transaction → State → Response
  | .step, s =>
    match stepStatus s with
    | some st => .status st
    | none => .nothing
  | .load _, _ => .success
  | .tick, _ => .nothing
  | .keyDown _, _ => .nothing
  | .keyUp _, _ => .nothing
  | .setMode _, _ => .nothing
  | .reset _, _ => .nothing

/-- A run (R188): a sequence of transactions, in the host's order. -/
def runTransactions : List Transaction → State → Result
  | [], s => .next s
  | t :: ts, s =>
    match transact t s with
    | .next s' => runTransactions ts s'
    | .fault r => .fault r
    | .refused r => .refused r

/-- A transaction's result under given parameters. -/
def responseWith (p : Parameters) (tr : Transaction) (s : State) : Response :=
  match tr with
  | .step =>
    match stepStatusWith p s with
    | some st => .status st
    | none => .nothing
  | .tick | .keyDown _ | .keyUp _ | .setMode _ | .reset _ | .load _ => response tr s

/-- A run under given parameters. -/
def runTransactionsWith (p : Parameters) : List Transaction → State → Result
  | [], s => .next s
  | t :: ts, s =>
    match transactWith p t s with
    | .next s' => runTransactionsWith p ts s'
    | .fault r => .fault r
    | .refused r => .refused r

/-! ## Read-only ports (R168) -/

/-- `pixel(x, y)`: `FbGet`, off for coordinates out of range. -/
def portPixel (x y : Nat) (s : State) : Bool := fbGet s.fb x y

/-- `reg(i)`. -/
def portReg (x : Reg) (s : State) : Byte := getV s x

/-- `addr_reg`. -/
def portAddrReg (s : State) : Word := s.i

/-- `pc`. -/
def portPc (s : State) : Word := s.pc

/-- `delay`. -/
def portDelay (s : State) : Byte := s.dt

/-- `sound`. -/
def portSound (s : State) : Byte := s.st

/-- `mode`. -/
def portMode (s : State) : Mode := s.mode

/-- `key(k)`. -/
def portKey (k : Reg) (s : State) : Bool := s.keys[k.val]

/-- `next_instruction`: the word at `PC`, without advancing; none where `PC` ≥ 4095, which the source leaves undefined
(R168, N15, U17; notes/assumptions/11.md). -/
def portNextInstruction (s : State) : Option Word :=
  match fetchWord s with
  | .ok w => some w
  | .error _ => none

end Sys2Proof.Machine
end

