-- ==== Sys2Proof/Safety.lean ====
section
/-! DEFINITION. The terms in which claims speak of the machine: how a run stands (R188), what two states have in common (for
frames), and the invariant of every reachable state (R35). -/

namespace Sys2Proof.Machine

/-! ## How a run stands (R188) -/

/-- FINAL: the run ended at the sentinel. -/
def State.Final (s : State) : Prop := s.run = .halted

/-- FAULTED: never final. -/
def State.Faulted (s : State) : Prop := ∃ c, s.run = .faulted c

/-- WAITING: for a key; not final. -/
def State.Waiting (s : State) : Prop := ∃ x, s.run = .awaitingInput x

/-- The transactions of `ts` from `s` never raise a fault. -/
def SafeRun (ts : List Transaction) (s : State) : Prop :=
  ∀ n t, runTransactions (ts.take n) s = .next t → ¬ t.Faulted

/-! ## Frames -/

/-- The pieces of state, one for each field of `State`. -/
inductive Part where
  | v | i | pc | stack | dt | st | mem | fb | keys | run | mode | draws
deriving DecidableEq, Repr

/-- A piece of state is the same in both states; memory by the read of every address. -/
def Part.Same (p : Part) (s t : State) : Prop :=
  match p with
  | .v => ∀ r, getV t r = getV s r
  | .i => t.i = s.i
  | .pc => t.pc = s.pc
  | .stack => t.stack = s.stack
  | .dt => t.dt = s.dt
  | .st => t.st = s.st
  | .mem => ∀ a, peek t a = peek s a
  | .fb => ∀ x y, fbGet t.fb x y = fbGet s.fb x y
  | .keys => ∀ k : Reg, portKey k t = portKey k s
  | .run => t.run = s.run
  | .mode => t.mode = s.mode
  | .draws => t.draws = s.draws

/-- From `s` to `t` nothing changed but, perhaps, the pieces of state named. -/
def SameExcept (ps : List Part) (s t : State) : Prop := ∀ p, p ∉ ps → p.Same s t

/-- The general registers are the same, but for those named. -/
def RegsSameExcept (rs : List Reg) (s t : State) : Prop := ∀ r, r ∉ rs → getV t r = getV s r

/-! ## The invariant of every reachable state (R35) -/

/-- A fault's address is out of bounds (R181, R182), and a 16-bit register held it. -/
def RunState.faultAddrOk : RunState → Bool
  | .faulted (.memoryFault a) => decide (4096 ≤ a ∧ a ≤ 0xFFFF)
  | _ => true

/-- R35: `PC` in 0..0x10FE, every entry of the stack in 2..0x1000 (the bounds on `V`, `I`, `DT`, `ST` and the latch are their
types); with it the canonical form of memory and the range of a fault's address (R181). -/
abbrev State.Inv (s : State) : Prop :=
  s.mem.wf ∧ s.pc.toNat ≤ 0x10FE ∧ (∀ a ∈ s.stack, 2 ≤ a.toNat ∧ a.toNat ≤ 0x1000) ∧ s.run.faultAddrOk = true

end Sys2Proof.Machine
end

