-- ==== Sys2Proof/Certificates/Slice0/Obligations.lean ====
section
/-! DEFINITION. The statements for the provers. Where a statement rests on a decision of the spec's own (D<n> of
92_eei_decisions.md) or on general knowledge (G<n> of 93_implementation_defined.md), its docstring says so. The state `s` in
which `exec i s` runs is the one after the cycle's advance of `PC` (R93). -/

open Sys2Proof Sys2Proof.Machine

namespace Sys2Proof.Claims

/-- The word at `PC`, read from memory: the byte at `PC` is its upper one (R71). -/
def wordAtPc (s : State) : Word := wordOfBytes (peek s s.pc.toNat) (peek s (s.pc.toNat + 1))

/-- The core is ready and both bytes at `PC` are cells. -/
abbrev CanFetch (s : State) : Prop := s.run = .ready ∧ s.pc.toNat < 4095

/-- The number that a flag puts in `VF` (R21). -/
def flagNat (b : Bool) : Nat := if b then 1 else 0

/-- The bit that the sprite of `DRW` has for the pixel (a, c) (R142, R143): `n` rows of 8 columns at (x0, y0), row r the byte
at `I` + r, column q its bit 7 − q. -/
def spritePixel (s : State) (x0 y0 n a c : Nat) : Bool :=
  decide (x0 ≤ a ∧ a < x0 + 8 ∧ y0 ≤ c ∧ c < y0 + n) && (peek s (effAddr s (c - y0))).getLsbD (7 - (a - x0))

/-- The value of `I` after a block transfer of `V0`..`Vx` (R134, R135). -/
def blockEnd (x : Reg) (s : State) : Nat :=
  match s.mode with
  | .legacy => (s.i.toNat + x.val + 1) % 65536
  | .extended => s.i.toNat

/-- What the cell `a` holds once `V0`..`Vx` are stored from `I` on (R134): the register that falls on it, else its old byte. -/
def blockStoredByte (x : Reg) (s : State) (a : Nat) : Byte :=
  if effAddr s 0 ≤ a ∧ a ≤ effAddr s x.val then getV s (Fin.ofNat 16 (a - effAddr s 0)) else peek s a

/-- What the cell `a` holds once the decimal digits of `Vx` are stored from `I` on (R133): the hundreds, the tens, the units, else
its old byte. -/
def digitStoredByte (x : Reg) (s : State) (a : Nat) : Byte :=
  if a = effAddr s 0 then BitVec.ofNat 8 ((getV s x).toNat / 100)
  else if a = effAddr s 1 then BitVec.ofNat 8 ((getV s x).toNat / 10 % 10)
  else if a = effAddr s 2 then BitVec.ofNat 8 ((getV s x).toNat % 10)
  else peek s a

/-- The next fetch from `t` is of the word `w`, and where `w` is an instruction, the next step of a ready core runs it. -/
def NextFetchIs (t : State) (w : Word) : Prop :=
  fetchWord t = .ok w ∧ (t.run = .ready → ∀ i, decodeWord w = .instr i → step t = exec i (beforeExec i t))

/-- The skips, as R108 lists them: the condition on which each moves `PC` a further 2; none for another instruction. -/
def skipCondition (s : State) : Instr → Option Bool
  | .seVxNn x nn => some (getV s x == nn)
  | .sneVxNn x nn => some (getV s x != nn)
  | .seVxVy x y => some (getV s x == getV s y)
  | .sneVxVy x y => some (getV s x != getV s y)
  | _ => none

/-- R34, the access matrix, its column "written by" for instructions (by the table's mnemonics); for `RUN` those that raise a
fault with the others. -/
def writtenBy : Part → List String
  | .v => ["LD_VX_NN", "ADD_VX_NN", "LD_VX_VY", "OR", "AND", "XOR", "ADD_VX_VY", "SUB", "SHR", "SUBN", "SHL", "RND",
      "LD_VX_DT", "LD_VX_MEM", "DRW"]
  | .i => ["LD_I_NNN", "ADD_I_VX", "LD_F_VX", "LD_MEM_VX", "LD_VX_MEM"]
  | .pc => ["SE_VX_NN", "SNE_VX_NN", "SE_VX_VY", "SNE_VX_VY", "SKP", "SKNP", "JP", "CALL", "JP_V0_NNN", "RET"]
  | .stack => ["CALL", "RET"]
  | .dt => ["LD_DT_VX"]
  | .st => ["LD_ST_VX"]
  | .mem => ["LD_B_VX", "LD_MEM_VX"]
  | .fb => ["CLS", "DRW"]
  | .keys => []
  | .run => ["HALT", "LD_VX_K", "RET", "DRW", "LD_B_VX", "LD_MEM_VX", "LD_VX_MEM"]
  | .mode => []
  | .draws => ["RND"]

/-- The four instructions whose effect depends on the mode (R30). -/
def modeDependent : List String := ["SHR", "SHL", "LD_MEM_VX", "LD_VX_MEM"]

/-- The six instructions that write `VF` as a side effect (R21). -/
def flagWriters : List String := ["ADD_VX_VY", "SUB", "SUBN", "SHR", "SHL", "DRW"]

/-- The registers that an instruction names as its destination `X`, or fills as a block (R21, R34). -/
def destinations : Instr → List Reg
  | .ldVxNn x _ | .addVxNn x _ | .ldVxVy x _ | .orVxVy x _ | .andVxVy x _ | .xorVxVy x _ | .addVxVy x _ | .sub x _
  | .shr x _ | .subn x _ | .shl x _ | .rnd x _ | .ldVxDt x => [x]
  | .ldVxMem x => (List.finRange 16).filter (· ≤ x)
  | _ => []

end Sys2Proof.Claims

open Sys2Proof.Claims

/-! ## The cycle -/

/-- R90, R93, R94: where the word at `PC` decodes to an instruction, a `step` is that instruction's meaning, in the state with
`PC` advanced by 2; for the sentinel, in the state as it stands (R92). -/
def Obligations.StepRunsDecodedInstruction : Prop :=
  ∀ (s : State) (i : Instr), CanFetch s → decodeWord (wordAtPc s) = .instr i →
    (i = .halt → step s = exec i s) ∧
    (i ≠ .halt → step s = exec i (setPc (s.pc + 2) s) ∧ (s.pc + 2).toNat = s.pc.toNat + 2)

/-- R95, R184, with decision D24 for the advance: an unknown word moves `PC` by 2, changes nothing else, leaves the core ready
and is reported. -/
def Obligations.UnknownWordOnlyAdvancesPc : Prop :=
  ∀ (s : State) (w : Word), CanFetch s → decodeWord (wordAtPc s) = .unknown w →
    ∃ t, step s = .next t ∧ t.pc.toNat = s.pc.toNat + 2 ∧ t.run = .ready ∧ SameExcept [.pc] s t ∧
      w = wordAtPc s ∧ stepStatus s = some (.unknownOpcode w)

/-- R91, R182, R185, with decisions D4 and D6: a fetch at `PC` ≥ 4095 enters `Faulted` with the address max(`PC`, 4096), and
nothing else changes, `PC` included. -/
def Obligations.FetchOutOfBoundsFaults : Prop :=
  ∀ s : State, s.run = .ready → 4095 ≤ s.pc.toNat →
    ∃ t, step s = .next t ∧ t.run = .faulted (.memoryFault (max s.pc.toNat 4096)) ∧ SameExcept [.run] s t ∧
      stepStatus s = some (.fault (.memoryFault (max s.pc.toNat 4096)))

/-- R71: the word fetched has the byte at `PC` as bits 15:8 and the byte at `PC` + 1 as bits 7:0. -/
def Obligations.FetchedWordIsBigEndian : Prop :=
  ∀ s : State, s.pc.toNat + 1 < 4096 →
    ∃ w, fetchWord s = .ok w ∧ fieldHi w = peek s s.pc.toNat ∧ fieldLo w = peek s (s.pc.toNat + 1) ∧
      w.toNat = (peek s s.pc.toNat).toNat * 256 + (peek s (s.pc.toNat + 1)).toNat

/-- R92 (that the step of any other word answers a next state: no stack limit for `CALL`, decision D16, log entry 8, and no
fault of a key code in `SKP` and `SKNP`, decision D13, log entry 7): `HALT` halts and changes nothing else; a `step` halts just
when both bytes at `PC` are zero, `PC` is not advanced then, and the status is `Halt`; 0x0001 is no halt. -/
def Obligations.ZeroWordHalts : Prop :=
  (∀ s : State, ∃ t, exec .halt s = .next t ∧ t.run = .halted ∧ SameExcept [.run] s t) ∧
  (∀ s : State, CanFetch s → peek s s.pc.toNat = 0 → peek s (s.pc.toNat + 1) = 0 →
    ∃ t, step s = .next t ∧ t.run = .halted ∧ t.pc = s.pc ∧ SameExcept [.run] s t ∧ stepStatus s = some .halt) ∧
  (∀ s : State, CanFetch s → ¬ (peek s s.pc.toNat = 0 ∧ peek s (s.pc.toNat + 1) = 0) →
    ∃ t, step s = .next t ∧ t.run ≠ .halted) ∧
  decodeWord 0x0001 = .unknown 0x0001

/-- R97: while the core waits for a key, a `step` changes nothing and reports `Continue`; only a key-down, a reset (a load
resets) leaves the wait; `tick`, `key_up` and `set_mode` act while it lasts as they do in a ready core. -/
def Obligations.StepDuringKeyWaitIsNoOp : Prop :=
  ∀ (s : State) (x : Reg), s.run = .awaitingInput x →
    step s = .next s ∧ stepStatus s = some .continue ∧
    (∀ tr t, transact tr s = .next t → (∀ k, tr ≠ .keyDown k) → (∀ c, tr ≠ .reset c) → (∀ bs, tr ≠ .load bs) →
      t.run = .awaitingInput x) ∧
    (∀ (k : Reg) (m : Mode) (tr : Transaction), tr ∈ [.tick, .keyUp k, .setMode m] →
      ∃ t, transact tr s = .next t ∧ transact tr (setRun .ready s) = .next (setRun .ready t)) ∧
    ((tick s).dt.toNat = s.dt.toNat - 1 ∧ (tick s).st.toNat = s.st.toNat - 1) ∧
    (∀ k, portKey k (keyUp k s) = false) ∧ (∀ m, (Sys2Proof.Machine.setMode m s).mode = m)

/-- R98, R192, with decisions D4 and D17: in `Halted` and in `Faulted` a `step` changes nothing and reports the same status
again, and no transaction but a reset (a load resets) leaves the state. -/
def Obligations.StoppedCoreStaysStopped : Prop :=
  (∀ s : State, s.run = .halted → step s = .next s ∧ stepStatus s = some .halt) ∧
  (∀ (s : State) (c : FaultCause), s.run = .faulted c → step s = .next s ∧ stepStatus s = some (.fault c)) ∧
  (∀ (s t : State) (tr : Transaction), (s.run = .halted ∨ ∃ c, s.run = .faulted c) → transact tr s = .next t →
    (∀ c, tr ≠ .reset c) → (∀ bs, tr ≠ .load bs) → t.run = s.run) ∧
  (∀ (s : State) (c : Bool), (resetCore c s).run = .ready)

/-- R99, R161, R181 (the numbers of the codes: decision D20; the next state of `CALL`: no stack limit, decision D16, log entry
8; of `SKP` and `SKNP`: decision D13, log entry 7): every `step` ends in a next state and returns exactly one status, and the
run state after it is the one that the table gives for that status. -/
def Obligations.EveryStepReturnsOneStatus : Prop :=
  ∀ s : State, ∃ t st, step s = .next t ∧ stepStatus s = some st ∧
    (match st with
     | .continue => st.code = 0 ∧ (t.run = .ready ∨ ∃ x, t.run = .awaitingInput x)
     | .halt => st.code = 1 ∧ t.run = .halted
     | .unknownOpcode w => st.code = 2 ∧ t.run = .ready ∧ fetchWord s = .ok w ∧ decodeWord w = .unknown w
     | .fault (.memoryFault a) => st.code = 3 ∧ t.run = .faulted (.memoryFault a)
     | .fault .stackUnderflow => st.code = 4 ∧ t.run = .faulted .stackUnderflow)

/-! ## Control transfer -/

/-- R100: `RET` with a return address on the stack takes it, whole, into `PC`. -/
def Obligations.RetTakesReturnAddress : Prop :=
  ∀ (s : State) (a : Word) (rest : List Word), s.stack = a :: rest →
    ∃ t, exec .ret s = .next t ∧ t.pc = a ∧ t.stack = rest ∧ SameExcept [.pc, .stack] s t

/-- R100, R183, with decisions D4 and D7: `RET` with an empty stack enters `Faulted(StackUnderflow)`; the stack stays empty and
`PC` keeps its advanced value. -/
def Obligations.RetOnEmptyStackFaults : Prop :=
  ∀ s : State, s.stack = [] →
    ∃ t, exec .ret s = .next t ∧ t.run = .faulted .stackUnderflow ∧ t.stack = [] ∧ SameExcept [.run] s t

/-- R101, R107: `JP nnn` sets `PC` to NNN; `JP V0, nnn` to V0 + NNN, neither masked nor reduced, whatever the mode. -/
def Obligations.JumpsSetPc : Prop :=
  ∀ (s : State) (nnn : BitVec 12),
    (∃ t, exec (.jp nnn) s = .next t ∧ t.pc.toNat = nnn.toNat ∧ SameExcept [.pc] s t) ∧
    (∃ t, exec (.jpV0Nnn nnn) s = .next t ∧ t.pc.toNat = (getV s 0).toNat + nnn.toNat ∧ SameExcept [.pc] s t)

/-- R102, R24 (no limit on the stack's depth: decision D16): `CALL` pushes the advanced `PC` and sets `PC` to NNN. -/
def Obligations.CallPushesAdvancedPc : Prop :=
  ∀ (s : State) (nnn : BitVec 12),
    ∃ t, exec (.call nnn) s = .next t ∧ t.stack = s.pc :: s.stack ∧ t.pc.toNat = nnn.toNat ∧ SameExcept [.pc, .stack] s t

/-- R100, R102, R93 (95_test_vectors.md S6, in general; no limit on the stack's depth: decision D16, log entry 8): a step that
calls a subroutine whose first word is `RET`, and the step that runs it, come back to the word after the call, with every other
piece of state as it was. -/
def Obligations.CallThenReturnComesBack : Prop :=
  ∀ (s : State) (nnn : BitVec 12), CanFetch s → decodeWord (wordAtPc s) = .instr (.call nnn) → nnn.toNat < 4095 →
    decodeWord (wordOfBytes (peek s nnn.toNat) (peek s (nnn.toNat + 1))) = .instr .ret →
    ∃ t u, step s = .next t ∧ t.pc.toNat = nnn.toNat ∧ t.stack = (s.pc + 2) :: s.stack ∧
      step t = .next u ∧ u.pc.toNat = s.pc.toNat + 2 ∧ SameExcept [.pc] s u

/-- R103 to R106, R108: the four comparing skips move `PC` a further 2 when their condition holds, and leave it otherwise;
nothing else changes. -/
def Obligations.ComparingSkips : Prop :=
  ∀ (s : State) (x y : Reg) (nn : BitVec 8),
    (∃ t, exec (.seVxNn x nn) s = .next t ∧ (getV s x = nn → t.pc = s.pc + 2) ∧ (getV s x ≠ nn → t.pc = s.pc) ∧
      SameExcept [.pc] s t) ∧
    (∃ t, exec (.sneVxNn x nn) s = .next t ∧ (getV s x ≠ nn → t.pc = s.pc + 2) ∧ (getV s x = nn → t.pc = s.pc) ∧
      SameExcept [.pc] s t) ∧
    (∃ t, exec (.seVxVy x y) s = .next t ∧ (getV s x = getV s y → t.pc = s.pc + 2) ∧
      (getV s x ≠ getV s y → t.pc = s.pc) ∧ SameExcept [.pc] s t) ∧
    (∃ t, exec (.sneVxVy x y) s = .next t ∧ (getV s x ≠ getV s y → t.pc = s.pc + 2) ∧
      (getV s x = getV s y → t.pc = s.pc) ∧ SameExcept [.pc] s t)

/-- R103 to R106, R93, R108: a step that runs a comparing skip at address a ends at a + 4 when its condition holds and at
a + 2 otherwise, without a wrap, whatever the skipped word is. -/
def Obligations.SkippingStepEndsAtNextOrNextButOne : Prop :=
  ∀ (s : State) (i : Instr) (b : Bool), CanFetch s → decodeWord (wordAtPc s) = .instr i → skipCondition s i = some b →
    ∃ t, step s = .next t ∧ t.pc.toNat = s.pc.toNat + (if b then 4 else 2) ∧ SameExcept [.pc] s t

/-- R153, R154, R156, with decision D13 for a code of 16 or more: `SKP` skips when the key whose code is in `Vx` is held, `SKNP`
when it is not; a code that names no key is not pressed. -/
def Obligations.KeySkips : Prop :=
  ∀ (s : State) (x : Reg),
    (∃ t, exec (.skp x) s = .next t ∧ SameExcept [.pc] s t ∧
      (∀ k : Reg, (getV s x).toNat = k.val → t.pc = if portKey k s then s.pc + 2 else s.pc) ∧
      (16 ≤ (getV s x).toNat → t.pc = s.pc)) ∧
    (∃ t, exec (.sknp x) s = .next t ∧ SameExcept [.pc] s t ∧
      (∀ k : Reg, (getV s x).toNat = k.val → t.pc = if portKey k s then s.pc else s.pc + 2) ∧
      (16 ≤ (getV s x).toNat → t.pc = s.pc + 2))

/-! ## Registers -/

/-- R112, R113 (that `VF` is not written: decision D9): `LD Vx, nn` loads, `ADD Vx, nn` adds modulo 256; no other register
changes, `VF` among them unless it is `Vx`. -/
def Obligations.ImmediateLoadAndAdd : Prop :=
  ∀ (s : State) (x : Reg) (nn : BitVec 8),
    (∃ t, exec (.ldVxNn x nn) s = .next t ∧ getV t x = nn ∧ RegsSameExcept [x] s t ∧ SameExcept [.v] s t) ∧
    (∃ t, exec (.addVxNn x nn) s = .next t ∧ (getV t x).toNat = ((getV s x).toNat + nn.toNat) % 256 ∧
      RegsSameExcept [x] s t ∧ SameExcept [.v] s t)

/-- R114 to R117 (that `VF` is not written: decision D9): copy, OR, AND, XOR, bit by bit; no other register changes. -/
def Obligations.CopyAndLogic : Prop :=
  ∀ (s : State) (x y : Reg),
    (∃ t, exec (.ldVxVy x y) s = .next t ∧ getV t x = getV s y ∧ RegsSameExcept [x] s t ∧ SameExcept [.v] s t) ∧
    (∃ t, exec (.orVxVy x y) s = .next t ∧
      (∀ j < 8, (getV t x).getLsbD j = ((getV s x).getLsbD j || (getV s y).getLsbD j)) ∧
      RegsSameExcept [x] s t ∧ SameExcept [.v] s t) ∧
    (∃ t, exec (.andVxVy x y) s = .next t ∧
      (∀ j < 8, (getV t x).getLsbD j = ((getV s x).getLsbD j && (getV s y).getLsbD j)) ∧
      RegsSameExcept [x] s t ∧ SameExcept [.v] s t) ∧
    (∃ t, exec (.xorVxVy x y) s = .next t ∧
      (∀ j < 8, (getV t x).getLsbD j = ((getV s x).getLsbD j ^^ (getV s y).getLsbD j)) ∧
      RegsSameExcept [x] s t ∧ SameExcept [.v] s t)

/-- R118, R110, R111 (the flag last, where `x` is 15: decision D8): `ADD Vx, Vy` gives the sum modulo 256 and in `VF` whether
the 9-bit sum exceeds 255. -/
def Obligations.AddRecordsCarry : Prop :=
  ∀ (s : State) (x y : Reg), ∃ t, exec (.addVxVy x y) s = .next t ∧
    (x ≠ 15 → (getV t x).toNat = ((getV s x).toNat + (getV s y).toNat) % 256) ∧
    (getV t 15).toNat = ((getV s x).toNat + (getV s y).toNat) / 256 ∧
    RegsSameExcept [x, 15] s t ∧ SameExcept [.v] s t

/-- R119, R121, R110, R111 (the flag last: decision D8; that `SUBN` is `Vy` − `Vx`: general knowledge G7): the difference
modulo 256, and in `VF` 1 for no borrow, equal operands included. -/
def Obligations.SubtractionsRecordNoBorrow : Prop :=
  ∀ (s : State) (x y : Reg),
    (∃ t, exec (.sub x y) s = .next t ∧
      (x ≠ 15 → (getV t x).toNat = ((getV s x).toNat + 256 - (getV s y).toNat) % 256) ∧
      (getV t 15).toNat = flagNat (decide ((getV s y).toNat ≤ (getV s x).toNat)) ∧
      RegsSameExcept [x, 15] s t ∧ SameExcept [.v] s t) ∧
    (∃ t, exec (.subn x y) s = .next t ∧
      (x ≠ 15 → (getV t x).toNat = ((getV s y).toNat + 256 - (getV s x).toNat) % 256) ∧
      (getV t 15).toNat = flagNat (decide ((getV s x).toNat ≤ (getV s y).toNat)) ∧
      RegsSameExcept [x, 15] s t ∧ SameExcept [.v] s t)

/-- R120, R122, R110, R111 (the flag last: decision D8; the flag in Extended mode and its value: decision D23): a shift by one
bit of `Vy` in Legacy mode and of `Vx` in Extended mode, into `Vx`, the bit shifted out into `VF`. -/
def Obligations.ShiftsRecordTheBitShiftedOut : Prop :=
  ∀ (s : State) (x y : Reg) (a : Byte),
    (s.mode = .legacy ∧ a = getV s y ∨ s.mode = .extended ∧ a = getV s x) →
    (∃ t, exec (.shr x y) s = .next t ∧ (x ≠ 15 → (getV t x).toNat = a.toNat / 2) ∧ (getV t 15).toNat = a.toNat % 2 ∧
      RegsSameExcept [x, 15] s t ∧ SameExcept [.v] s t) ∧
    (∃ t, exec (.shl x y) s = .next t ∧ (x ≠ 15 → (getV t x).toNat = a.toNat * 2 % 256) ∧
      (getV t 15).toNat = a.toNat / 128 ∧ RegsSameExcept [x, 15] s t ∧ SameExcept [.v] s t)

/-- R21 (with decisions D8, D9): after each of the six flag-writing instructions that completes, `VF` is 0 or 1, also where it
is the destination; and no other instruction changes `VF` unless it names it as its destination. -/
def Obligations.OnlySixInstructionsWriteFlag : Prop :=
  (∀ (i : Instr) (s t : State), i.mnemonic ∈ flagWriters → exec i s = .next t → t.run = s.run →
    (∀ c, s.run ≠ .faulted c) → getV t 15 = 0 ∨ getV t 15 = 1) ∧
  (∀ (i : Instr) (s t : State), i.mnemonic ∉ flagWriters → 15 ∉ destinations i → exec i s = .next t →
    getV t 15 = getV s 15)

/-- R123, R31 (the oracle: decision D19; the count of draws is the model's, log entry 3): `RND` takes one byte of the oracle, of
which nothing is known, and masks it with NN; so no bit outside NN is set. -/
def Obligations.RandomByteIsMasked : Prop :=
  ∀ (s : State) (x : Reg) (nn : BitVec 8), ∃ t, exec (.rnd x nn) s = .next t ∧
    (∃ r : Byte, r = Config.draw8 s.draws ∧ ∀ j < 8, (getV t x).getLsbD j = (r.getLsbD j && nn.getLsbD j)) ∧
    getV t x &&& ~~~nn = 0 ∧ (nn = 0 → getV t x = 0) ∧ t.draws = s.draws + 1 ∧
    RegsSameExcept [x] s t ∧ SameExcept [.v, .draws] s t

/-- R130, R131, R132 (the wrap of `ADD I, Vx` at 2^16: decision D10; `LD F` with a value above 15: decision D12): the three
instructions that set `I`; `VF` is not written. -/
def Obligations.AddressRegisterInstructions : Prop :=
  (∀ (s : State) (nnn : BitVec 12), ∃ t, exec (.ldINnn nnn) s = .next t ∧ t.i.toNat = nnn.toNat ∧ SameExcept [.i] s t) ∧
  (∀ (s : State) (x : Reg), ∃ t, exec (.addIVx x) s = .next t ∧
    t.i.toNat = (s.i.toNat + (getV s x).toNat) % 65536 ∧ SameExcept [.i] s t) ∧
  (∀ (s : State) (x : Reg), ∃ t, exec (.ldFVx x) s = .next t ∧ t.i.toNat = (getV s x).toNat * 5 ∧ SameExcept [.i] s t)

/-! ## Memory -/

/-- R51, R52: a byte read in bounds gives the cell and a write in bounds is read back and leaves every other cell and all
other state; at 4096 and beyond both raise MemoryFault with the address, and the write leaves memory. -/
def Obligations.CheckedByteAccess : Prop :=
  ∀ (s : State) (a : Nat) (b : Byte),
    (a < 4096 → memRead s a = .ok (peek s a) ∧
      ∃ t, memWrite a b s = .ok t ∧ memRead t a = .ok b ∧ (∀ c, c ≠ a → peek t c = peek s c) ∧ SameExcept [.mem] s t) ∧
    (4096 ≤ a → memRead s a = .error (.memoryFault a) ∧ memWrite a b s = .error (.memoryFault a))

/-- R65, R53 (precise faults: decision D5): the whole-range check passes for an empty range and for one in bounds, and otherwise
reports the lowest address out of bounds; after it passed, none of the reads and writes of the range can fault. -/
def Obligations.RangeCheckedBeforeAccess : Prop :=
  ∀ (s : State) (a : Nat) (bs : List Byte),
    (a + bs.length ≤ 4096 ∨ bs = [] →
      memCheck a bs.length = .ok () ∧ (∃ t, writeBytes a bs s = .ok t ∧ readBytes t a bs.length = .ok bs) ∧
        ∃ cs, readBytes s a bs.length = .ok cs ∧ cs.length = bs.length) ∧
    (4096 < a + bs.length → bs ≠ [] →
      memCheck a bs.length = .error (.memoryFault (max a 4096)) ∧
      storeRange a bs s = .error (.memoryFault (max a 4096)) ∧
      loadRange s a bs.length = .error (.memoryFault (max a 4096)))

/-- R133: `LD B, Vx` with its three cells in bounds stores the hundreds, tens and ones digits at the effective address, and
nothing else changes, `I` included. -/
def Obligations.BcdStoreWritesThreeDigits : Prop :=
  ∀ (s : State) (x : Reg), effAddr s 2 < 4096 →
    ∃ t, exec (.ldBVx x) s = .next t ∧
      (peek t (effAddr s 0)).toNat = (getV s x).toNat / 100 ∧
      (peek t (effAddr s 1)).toNat = (getV s x).toNat / 10 % 10 ∧
      (peek t (effAddr s 2)).toNat = (getV s x).toNat % 10 ∧
      (∀ a, effAddr s 0 = a → ∀ c, c < a ∨ a + 3 ≤ c → peek t c = peek s c) ∧ SameExcept [.mem] s t

/-- R134 (the wrap of `I` at 2^16: decision D10): `LD [I], Vx` with its block in bounds stores `V0`..`Vx` at ascending addresses
from the old `I`, in both modes; `I` moves past the block in Legacy mode only. -/
def Obligations.BlockStoreWritesRegisters : Prop :=
  ∀ (s : State) (x : Reg), effAddr s x.val < 4096 →
    ∃ t, exec (.ldMemVx x) s = .next t ∧ (∀ k : Reg, k ≤ x → peek t (effAddr s k.val) = getV s k) ∧
      (∀ a, effAddr s 0 = a → ∀ c, c < a ∨ a + x.val + 1 ≤ c → peek t c = peek s c) ∧
      t.i.toNat = blockEnd x s ∧ SameExcept [.mem, .i] s t

/-- R135 (the wrap of `I` at 2^16: decision D10): `LD Vx, [I]` with its block in bounds loads `V0`..`Vx` from ascending addresses
from the old `I`; the registers above `Vx` and memory are unchanged; `I` moves past the block in Legacy mode only. -/
def Obligations.BlockLoadReadsRegisters : Prop :=
  ∀ (s : State) (x : Reg), effAddr s x.val < 4096 →
    ∃ t, exec (.ldVxMem x) s = .next t ∧ (∀ k : Reg, k ≤ x → getV t k = peek s (effAddr s k.val)) ∧
      (∀ k : Reg, x < k → getV t k = getV s k) ∧ t.i.toNat = blockEnd x s ∧ SameExcept [.v, .i] s t

/-- R182, R185, R133, R134, R135, R142 (sticky and precise faults: decisions D4, D5; no wrap of the address: decision D11): each
of the four instructions that access memory, with its range out of bounds, enters `Faulted` with the address max(`I`, 4096),
and nothing else changes: no cell, no register, no pixel, not `I`. -/
def Obligations.MemoryInstructionsFaultOutOfBounds : Prop :=
  ∀ (s : State) (x y : Reg) (n : BitVec 4),
    (4096 ≤ effAddr s 2 → ∃ t, exec (.ldBVx x) s = .next t ∧
      t.run = .faulted (.memoryFault (max s.i.toNat 4096)) ∧ SameExcept [.run] s t) ∧
    (4096 ≤ effAddr s x.val → ∃ t, exec (.ldMemVx x) s = .next t ∧
      t.run = .faulted (.memoryFault (max s.i.toNat 4096)) ∧ SameExcept [.run] s t) ∧
    (4096 ≤ effAddr s x.val → ∃ t, exec (.ldVxMem x) s = .next t ∧
      t.run = .faulted (.memoryFault (max s.i.toNat 4096)) ∧ SameExcept [.run] s t) ∧
    (n ≠ 0 → 4097 ≤ effAddr s n.toNat → ∃ t, exec (.drw x y n) s = .next t ∧
      t.run = .faulted (.memoryFault (max s.i.toNat 4096)) ∧ SameExcept [.run] s t)

/-- R134, R135: in Extended mode, a block stored and then loaded back from the same `I` gives `V0`..`Vx` again, whatever the
registers held in between. -/
def Obligations.BlockStoreThenLoadRestores : Prop :=
  ∀ (s u : State) (x : Reg), s.mode = .extended → effAddr s x.val < 4096 →
    (∀ t, exec (.ldMemVx x) s = .next t → SameExcept [.v] t u) →
    ∃ w, exec (.ldVxMem x) u = .next w ∧ (∀ k : Reg, k ≤ x → getV w k = getV s k) ∧
      (∀ k : Reg, x < k → getV w k = getV u k) ∧ w.i = s.i

/-- R63, R60: a store is seen by the very next fetch: after `LD [I], Vx` and after `LD B, Vx`, wherever in memory each stores, the
word fetched at `PC` is made of the stored bytes that fall on `PC` and `PC` + 1 and of the old bytes there otherwise; and where
that word is an instruction, the next step of a ready core runs it. -/
def Obligations.StoreIsSeenByNextFetch : Prop :=
  ∀ (s : State) (x : Reg), s.pc.toNat < 4095 →
    (effAddr s x.val < 4096 → ∃ t, exec (.ldMemVx x) s = .next t ∧ t.run = s.run ∧
      NextFetchIs t (wordOfBytes (blockStoredByte x s s.pc.toNat) (blockStoredByte x s (s.pc.toNat + 1)))) ∧
    (effAddr s 2 < 4096 → ∃ t, exec (.ldBVx x) s = .next t ∧ t.run = s.run ∧
      NextFetchIs t (wordOfBytes (digitStoredByte x s s.pc.toNat) (digitStoredByte x s (s.pc.toNat + 1))))

/-! ## Display -/

/-- R141: `CLS` turns every pixel off, and nothing else changes. -/
def Obligations.ClearScreen : Prop :=
  ∀ s : State, ∃ t, exec .cls s = .next t ∧ (∀ a c, portPixel a c t = false) ∧ SameExcept [.fb] s t

/-- R142, R140, R143 (the bit order: general knowledge G3; exact coordinates, off-screen reads and height 0: decision D14;
whole-range check: decision D5): `DRW` with its rows in bounds, or with no row, flips the pixels of the grid that the sprite
has a 1 for, and sets `VF` to 1 where one of those was on, else to 0; no other register and no other state changes. -/
def Obligations.DrawFlipsSpritePixels : Prop :=
  ∀ (s : State) (x y : Reg) (n : BitVec 4), n = 0 ∨ effAddr s n.toNat ≤ 4096 →
    ∃ t, exec (.drw x y n) s = .next t ∧
      (∀ a c, a < 64 → c < 32 → portPixel a c t =
        (portPixel a c s ^^ spritePixel s (getV s x).toNat (getV s y).toNat n.toNat a c)) ∧
      ((∃ a c, a < 64 ∧ c < 32 ∧ portPixel a c s = true ∧
          spritePixel s (getV s x).toNat (getV s y).toNat n.toNat a c = true) → getV t 15 = 1) ∧
      ((∀ a c, a < 64 → c < 32 → portPixel a c s = true →
          spritePixel s (getV s x).toNat (getV s y).toNat n.toNat a c = false) → getV t 15 = 0) ∧
      RegsSameExcept [15] s t ∧ SameExcept [.v, .fb] s t

/-- R142 (95_test_vectors.md S7, with the premises of 90_conflicts.md C10; decisions D5 and D14, general knowledge G3): drawing a
sprite twice at one place restores the screen; and where no pixel under the sprite was on and a bit of the sprite falls on the
screen, `VF` is 0 after the first draw and 1 after the second. `VF` is not one of the coordinates (it changes in between). -/
def Obligations.DrawTwiceRestoresScreen : Prop :=
  ∀ (s : State) (x y : Reg) (n : BitVec 4), n = 0 ∨ effAddr s n.toNat ≤ 4096 → x ≠ 15 → y ≠ 15 →
    ∃ t u, exec (.drw x y n) s = .next t ∧ exec (.drw x y n) t = .next u ∧
      (∀ a c, portPixel a c u = portPixel a c s) ∧
      ((∀ a c, a < 64 → c < 32 → spritePixel s (getV s x).toNat (getV s y).toNat n.toNat a c = true →
          portPixel a c s = false) →
        (∃ a c, a < 64 ∧ c < 32 ∧ spritePixel s (getV s x).toNat (getV s y).toNat n.toNat a c = true) →
        getV t 15 = 0 ∧ getV u 15 = 1)

/-! ## Timers and keys -/

/-- R150, R151, R152: the three transfers between a register and a timer. -/
def Obligations.TimerTransfers : Prop :=
  ∀ (s : State) (x : Reg),
    (∃ t, exec (.ldVxDt x) s = .next t ∧ getV t x = s.dt ∧ RegsSameExcept [x] s t ∧ SameExcept [.v] s t) ∧
    (∃ t, exec (.ldDtVx x) s = .next t ∧ t.dt = getV s x ∧ SameExcept [.dt] s t) ∧
    (∃ t, exec (.ldStVx x) s = .next t ∧ t.st = getV s x ∧ SameExcept [.st] s t)

/-- R25 (`tick` in every run state: decision D22; 0 after `reset(false)` too: decision D18; both in log entry 17): the timers
are decremented by `tick` alone, toward zero and never below it; `DT` and `ST` are written by `LD DT, Vx` and `LD ST, Vx` and by
no other instruction; `DT` is read by `LD Vx, DT`; no instruction reads `ST`; both are 0 at power-on and after either reset. -/
def Obligations.TimersDecayOnlyByTick : Prop :=
  (∀ s : State, (tick s).dt.toNat = s.dt.toNat - 1 ∧ (tick s).st.toNat = s.st.toNat - 1 ∧
    SameExcept [.dt, .st] s (tick s)) ∧
  (∀ (s t : State) (tr : Transaction), transact tr s = .next t → tr ≠ .tick → (∀ c, tr ≠ .reset c) →
    (∀ bs, tr ≠ .load bs) → ((∀ x, cycleCase s = .run (.ldDtVx x) → tr ≠ .step) → t.dt = s.dt) ∧
      ((∀ x, cycleCase s = .run (.ldStVx x) → tr ≠ .step) → t.st = s.st)) ∧
  (∀ (i : Instr) (s t : State), exec i s = .next t →
    ((∀ x, i ≠ .ldDtVx x) → t.dt = s.dt) ∧ ((∀ x, i ≠ .ldStVx x) → t.st = s.st)) ∧
  (∀ (x : Reg) (s : State), (∃ t, exec (.ldDtVx x) s = .next t ∧ t.dt = getV s x) ∧
    (∃ t, exec (.ldStVx x) s = .next t ∧ t.st = getV s x) ∧ (∃ t, exec (.ldVxDt x) s = .next t ∧ getV t x = s.dt)) ∧
  (∀ (i : Instr) (s t : State) (b : Byte), exec i s = .next t →
    ((∀ x, i ≠ .ldStVx x) → exec i (setSt b s) = .next (setSt b t)) ∧
    ((∃ x, i = .ldStVx x) → exec i (setSt b s) = .next t)) ∧
  (State.reset.dt = 0 ∧ State.reset.st = 0 ∧ ∀ (c : Bool) (s : State), (resetCore c s).dt = 0 ∧ (resetCore c s).st = 0)

/-- R171, R162 (`tick` in every run state: decision D22): for an instruction that is no timer transfer, a `step` and a `tick`
give the same state in either order. -/
def Obligations.TickCommutesWithStep : Prop :=
  ∀ (s t : State), (∀ i, cycleCase s = .run i → (∀ x, i ≠ .ldVxDt x ∧ i ≠ .ldDtVx x ∧ i ≠ .ldStVx x)) →
    step s = .next t → step (tick s) = .next (tick t)

/-- R155: `LD Vx, K` sets the latch and writes no register; whether a key is held makes no difference. -/
def Obligations.KeyWaitSetsLatch : Prop :=
  ∀ (s : State) (x : Reg), ∃ t, exec (.ldVxK x) s = .next t ∧ t.run = .awaitingInput x ∧ SameExcept [.run] s t

/-- R163 (codes 0..15 only: decision D21): a key-down always sets the key's flag; where the core waits, it writes the key code into
the latched register and makes the core ready; otherwise nothing else changes. -/
def Obligations.KeyDownReleasesWait : Prop :=
  ∀ (s : State) (k : Reg),
    portKey k (keyDown k s) = true ∧ (∀ j, j ≠ k → portKey j (keyDown k s) = portKey j s) ∧
    (∀ x, s.run = .awaitingInput x → (keyDown k s).run = .ready ∧ (getV (keyDown k s) x).toNat = k.val ∧
      RegsSameExcept [x] s (keyDown k s) ∧ SameExcept [.v, .keys, .run] s (keyDown k s)) ∧
    ((∀ x, s.run ≠ .awaitingInput x) → SameExcept [.keys] s (keyDown k s))

/-- R164: a key-up clears the key's flag; no other flag and no other state changes, a key wait included. -/
def Obligations.KeyUpClearsFlagOnly : Prop :=
  ∀ (s : State) (k : Reg), ∃ t, transact (.keyUp k) s = .next t ∧ response (.keyUp k) s = .nothing ∧
    portKey k t = false ∧ (∀ j, j ≠ k → portKey j t = portKey j s) ∧ SameExcept [.keys] s t

/-- R155, R97, R163, R93 (decision D21): a step that runs `LD Vx, K`, any number of further steps, and a key-down: the register
has the key code, the core is ready, and `PC` is at the word after the `LD Vx, K`. -/
def Obligations.KeyWaitEndsWithTheNextKeyDown : Prop :=
  ∀ (s : State) (x k : Reg) (n : Nat), CanFetch s → decodeWord (wordAtPc s) = .instr (.ldVxK x) →
    ∃ t, runTransactions (.step :: (List.replicate n .step ++ [.keyDown k])) s = .next t ∧
      t.run = .ready ∧ (getV t x).toNat = k.val ∧ t.pc.toNat = s.pc.toNat + 2 ∧ portKey k t = true ∧
      RegsSameExcept [x] s t ∧ SameExcept [.v, .pc, .keys] s t

/-! ## Modes, reset, load -/

/-- R165: `set_mode` writes the mode, in any run state, and nothing else; it returns nothing. -/
def Obligations.SetModeChangesModeOnly : Prop :=
  ∀ (s : State) (m : Mode), ∃ t, transact (.setMode m) s = .next t ∧ response (.setMode m) s = .nothing ∧
    t.mode = m ∧ SameExcept [.mode] s t

/-- R30 (that `MODE` resets, to Extended, for both values of `clear`: decision D18, log entry 17): the mode affects exactly four
instructions: any other computes the same in both modes, and each of the four computes differently in some state; it never
changes decoding; no instruction writes it; `set_mode` and reset (a load resets) do, and no other transaction; its reset value
is Extended. -/
def Obligations.ModeAffectsExactlyFourInstructions : Prop :=
  (∀ (i : Instr) (s t : State) (m : Mode), i.mnemonic ∉ modeDependent → exec i s = .next t →
    exec i (Sys2Proof.Machine.setMode m s) = .next (Sys2Proof.Machine.setMode m t)) ∧
  (∀ n ∈ modeDependent, ∃ (i : Instr) (s t : State) (m : Mode), i.mnemonic = n ∧ exec i s = .next t ∧
    exec i (Sys2Proof.Machine.setMode m s) ≠ .next (Sys2Proof.Machine.setMode m t)) ∧
  (∀ (s : State) (m : Mode), cycleCase (Sys2Proof.Machine.setMode m s) = cycleCase s) ∧
  (∀ (i : Instr) (s t : State), exec i s = .next t → t.mode = s.mode) ∧
  (∀ (s : State) (m : Mode), (Sys2Proof.Machine.setMode m s).mode = m ∧ SameExcept [.mode] s (Sys2Proof.Machine.setMode m s)) ∧
  (∀ (s t : State) (tr : Transaction), transact tr s = .next t → (∀ m, tr ≠ .setMode m) → (∀ c, tr ≠ .reset c) →
    (∀ bs, tr ≠ .load bs) → t.mode = s.mode) ∧
  (State.reset.mode = .extended ∧ ∀ (c : Bool) (s : State), (resetCore c s).mode = .extended)

/-- R201, R33 (decision D18): the state after `reset(clear)`: all of it but memory the same for both values of `clear`, `KEYS`
kept, and memory at its reset contents where `clear` is set; the oracle is not touched (log entry 3). -/
def Obligations.ResetSetsEverythingButKeys : Prop :=
  ∀ (s : State) (c : Bool), ∃ t, transact (.reset c) s = .next t ∧
    (∀ x, getV t x = 0) ∧ t.i = 0 ∧ t.pc = 0x200 ∧ t.stack = [] ∧ t.dt = 0 ∧ t.st = 0 ∧
    (∀ a b, portPixel a b t = false) ∧ t.mode = .extended ∧ t.run = .ready ∧ SameExcept
      [.v, .i, .pc, .stack, .dt, .st, .fb, .mode, .run, .mem] s t ∧
    (c = true → (∀ a, a < 80 → peek t a = glyphTable.getD a 0) ∧ (∀ a, 80 ≤ a → peek t a = 0)) ∧
    (c = false → ∀ a, peek t a = peek s a)

/-- R202, R203 (what `reset(false)` leaves of memory, and that it sets `PC` and makes the core ready: decision D18, log entry
17): `reset(false)` leaves all of memory; after every reset the first instruction executed is the word at 0x200, 0x201 of the
memory there then is. -/
def Obligations.ExecutionBeginsAtEntry : Prop :=
  (∀ (s : State) (a : Nat), peek (resetCore false s) a = peek s a) ∧
  (∀ (s : State) (c : Bool) (i : Instr), (resetCore c s).pc = 0x200 ∧
    (decodeWord (wordOfBytes (peek (resetCore c s) 0x200) (peek (resetCore c s) 0x201)) = .instr i →
      cycleCase (resetCore c s) = .run i))

/-- R167: `load` is a clearing reset and then the image from 0x200 on, cut at 3584 bytes; the rest of memory and of the state is
as that reset leaves it; it succeeds. -/
def Obligations.LoadResetsThenPlacesImage : Prop :=
  ∀ (s : State) (bytes : List Byte), ∃ t, transact (.load bytes) s = .next t ∧ response (.load bytes) s = .success ∧
    (∀ k, k < bytes.length → k < 3584 → peek t (0x200 + k) = bytes.getD k 0) ∧
    (∀ a, (a < 0x200 ∨ 0x200 + min bytes.length 3584 ≤ a) → peek t a = peek (resetCore true s) a) ∧
    SameExcept [.mem] (resetCore true s) t

/-- R33, R200 (power-on as a clearing reset: decision D18; the glyph bytes are the parameter `GLYPH_TABLE`, decision D2; the count
of draws is the model's, log entry 3): the state after power-on. -/
def Obligations.PowerOnState : Prop :=
  (∀ x, getV State.reset x = 0) ∧ State.reset.i = 0 ∧ State.reset.pc = 0x200 ∧ State.reset.stack = [] ∧
  State.reset.dt = 0 ∧ State.reset.st = 0 ∧ (∀ a c, portPixel a c State.reset = false) ∧
  (∀ k, portKey k State.reset = false) ∧ State.reset.run = .ready ∧ State.reset.mode = .extended ∧
  (∀ a, a < 80 → peek State.reset a = glyphTable.getD a 0) ∧ (∀ a, 80 ≤ a → peek State.reset a = 0) ∧
  (∀ s : State, (∀ k, portKey k s = false) → s.draws = State.reset.draws → resetCore true s = State.reset)

/-! ## Decoding -/

/-- R72: the fields of a word are the bits that the rule's table names, for every word; with the rule's three worked decodes. -/
def Obligations.FieldsOfAWord : Prop :=
  (∀ w : Word, (fieldHi w).toNat = w.toNat / 256 ∧ (fieldLo w).toNat = w.toNat % 256 ∧
    (fieldOp w).toNat = w.toNat / 4096 ∧ (fieldNNN w).toNat = w.toNat % 4096 ∧ (fieldNN w).toNat = w.toNat % 256 ∧
    (fieldN w).toNat = w.toNat % 16 ∧ (fieldX w).val = w.toNat / 256 % 16 ∧ (fieldY w).val = w.toNat / 16 % 16) ∧
  (fieldX 0xDABC = 0xA ∧ fieldY 0xDABC = 0xB ∧ fieldN 0xDABC = 0xC) ∧ fieldNN 0x3ABC = 0xBC ∧ fieldNNN 0x2ABC = 0xABC

/-- R75, R77 (the table itself: general knowledge G1, log entry 1): no word selects two rows of the opcode table, and the all-zero
word selects none. -/
def Obligations.NoWordSelectsTwoRows : Prop :=
  (∀ (w : Word) (r q : OpRow), r ∈ opTable → q ∈ opTable → r.selects w = true → q.selects w = true → r = q) ∧
  (∀ r ∈ opTable, r.selects 0 = false)

/-- R76, R82 (the table: general knowledge G1, log entry 1): decoding the word of an instruction gives that instruction, with every
operand at every value; also from its two bytes, the bytes after them left over. -/
def Obligations.DecodeOfEncode : Prop :=
  ∀ (i : Instr) (rest : List Byte), i.wellFormed = true →
    decodeWord (encode i) = .instr i ∧ decodeBytes (encodeBytes i ++ rest) = .ok (i, rest)

/-- R75, R76, R82 (the table: general knowledge G1, log entry 1): a word that decodes to an instruction is that instruction's
word, so no two words decode to one instruction and no bit of a known word is ignored. -/
def Obligations.EncodeOfDecode : Prop :=
  ∀ (w : Word) (i : Instr), decodeWord w = .instr i → encode i = w

/-- R78 (the table: general knowledge G1, log entry 1): the unknown words are those of the rule's list, and each is reported as
itself. -/
def Obligations.UnknownWords : Prop :=
  ∀ w u : Word, decodeWord w = .unknown u ↔ u = w ∧
    ((fieldOp w = 0 ∧ w ≠ 0 ∧ w ≠ 0x00E0 ∧ w ≠ 0x00EE) ∨ (fieldOp w = 5 ∧ fieldN w ≠ 0) ∨
     (fieldOp w = 8 ∧ fieldN w ∈ [0x8, 0x9, 0xA, 0xB, 0xC, 0xD, 0xF]) ∨ (fieldOp w = 9 ∧ fieldN w ≠ 0) ∨
     (fieldOp w = 0xE ∧ fieldNN w ∉ [0x9E, 0xA1]) ∨
     (fieldOp w = 0xF ∧ fieldNN w ∉ [0x07, 0x0A, 0x15, 0x18, 0x1E, 0x29, 0x33, 0x55, 0x65]))

/-- R76, R77, R78 (the table: general knowledge G1, log entry 1; 95_test_vectors.md section 2.1): a word of each of the 35 rows of
the opcode table, written out from its pattern, decodes to the instruction it stands for, and a word of each of the six unknown
groups (0NNN, 5XYn, 8XYn, 9XYn, EXnn, FXnn) to `Unknown`. -/
def Obligations.WrittenWordsDecode : Prop :=
  decodeWord 0x0000 = .instr .halt ∧ decodeWord 0x00E0 = .instr .cls ∧
  decodeWord 0x00EE = .instr .ret ∧ decodeWord 0x1ABC = .instr (.jp 0xABC) ∧
  decodeWord 0x2ABC = .instr (.call 0xABC) ∧ decodeWord 0x3ABC = .instr (.seVxNn 0xA 0xBC) ∧
  decodeWord 0x4ABC = .instr (.sneVxNn 0xA 0xBC) ∧ decodeWord 0x5AB0 = .instr (.seVxVy 0xA 0xB) ∧
  decodeWord 0x6ABC = .instr (.ldVxNn 0xA 0xBC) ∧ decodeWord 0x7ABC = .instr (.addVxNn 0xA 0xBC) ∧
  decodeWord 0x8AB0 = .instr (.ldVxVy 0xA 0xB) ∧ decodeWord 0x8AB1 = .instr (.orVxVy 0xA 0xB) ∧
  decodeWord 0x8AB2 = .instr (.andVxVy 0xA 0xB) ∧ decodeWord 0x8AB3 = .instr (.xorVxVy 0xA 0xB) ∧
  decodeWord 0x8AB4 = .instr (.addVxVy 0xA 0xB) ∧ decodeWord 0x8AB5 = .instr (.sub 0xA 0xB) ∧
  decodeWord 0x8AB6 = .instr (.shr 0xA 0xB) ∧ decodeWord 0x8AB7 = .instr (.subn 0xA 0xB) ∧
  decodeWord 0x8ABE = .instr (.shl 0xA 0xB) ∧ decodeWord 0x9AB0 = .instr (.sneVxVy 0xA 0xB) ∧
  decodeWord 0xAABC = .instr (.ldINnn 0xABC) ∧ decodeWord 0xBABC = .instr (.jpV0Nnn 0xABC) ∧
  decodeWord 0xCABC = .instr (.rnd 0xA 0xBC) ∧ decodeWord 0xDABC = .instr (.drw 0xA 0xB 0xC) ∧
  decodeWord 0xEA9E = .instr (.skp 0xA) ∧ decodeWord 0xEAA1 = .instr (.sknp 0xA) ∧
  decodeWord 0xFA07 = .instr (.ldVxDt 0xA) ∧ decodeWord 0xFA0A = .instr (.ldVxK 0xA) ∧
  decodeWord 0xFA15 = .instr (.ldDtVx 0xA) ∧ decodeWord 0xFA18 = .instr (.ldStVx 0xA) ∧
  decodeWord 0xFA1E = .instr (.addIVx 0xA) ∧ decodeWord 0xFA29 = .instr (.ldFVx 0xA) ∧
  decodeWord 0xFA33 = .instr (.ldBVx 0xA) ∧ decodeWord 0xFA55 = .instr (.ldMemVx 0xA) ∧
  decodeWord 0xFA65 = .instr (.ldVxMem 0xA) ∧ decodeWord 0x0ABC = .unknown 0x0ABC ∧
  decodeWord 0x5AB1 = .unknown 0x5AB1 ∧ decodeWord 0x8AB8 = .unknown 0x8AB8 ∧
  decodeWord 0x9ABF = .unknown 0x9ABF ∧ decodeWord 0xEA9F = .unknown 0xEA9F ∧
  decodeWord 0xFA00 = .unknown 0xFA00

/-! ## Whole-machine rules -/

/-- R34 (the `VF`, `RUN` and fault entries rest on decisions D4 and D9): an instruction changes only the pieces of state that the
access matrix lists it as a writer of; in particular none writes `KEYS` or `MODE`. -/
def Obligations.AccessMatrix : Prop :=
  ∀ (i : Instr) (s t : State) (p : Part), exec i s = .next t → i.mnemonic ∉ writtenBy p → p.Same s t

/-- R20, R21, R34 (decision D9): an instruction changes no general register but its destination and, where it writes the flag,
`VF`. -/
def Obligations.RegistersChangedOnlyAsDestination : Prop :=
  ∀ (i : Instr) (s t : State) (r : Reg), exec i s = .next t → r ∉ destinations i →
    (r ≠ 15 ∨ i.mnemonic ∉ flagWriters) → getV t r = getV s r

/-- R185, R96, R91 (decisions D4, D5): a step that ends in a fault has changed nothing but the run state and, where the fetch
succeeded, the advance of `PC`; its status is that fault. -/
def Obligations.FaultsArePrecise : Prop :=
  ∀ (s t : State) (c : FaultCause), s.run = .ready → step s = .next t → t.run = .faulted c →
    SameExcept [.pc, .run] s t ∧ stepStatus s = some (.fault c) ∧
    (4095 ≤ s.pc.toNat → t.pc = s.pc) ∧ (s.pc.toNat < 4095 → t.pc.toNat = s.pc.toNat + 2)

/-- R35, R181 (the range of a stack entry and of `PC` are derived by the spec; the canonical form of memory is the model's, log
entry 9): every step keeps the invariant. -/
def Obligations.StepKeepsInvariant : Prop :=
  ∀ s t : State, s.Inv → step s = .next t → t.Inv

/-- R33, R35 (the canonical form of memory is the model's, log entry 9): the state after power-on meets the invariant. -/
def Obligations.PowerOnMeetsInvariant : Prop := State.reset.Inv

/-- R35, R160, R172 (derived by the spec; that every transaction ends in a next state: no stack limit, decision D16, log entry
8, and no fault of a key code, D13, log entry 7; the canonical form of memory is the model's, log entry 9): from power-on, every
sequence of transactions, in any order the host issues them, ends in a next state, and that state meets the invariant. -/
def Obligations.EveryRunKeepsInvariant : Prop :=
  ∀ ts : List Transaction, ∃ t, runTransactions ts State.reset = .next t ∧ t.Inv
end

