-- ==== Sys2Proof/Laws/State.lean ====
section
/-! SUPPORT. One lemma for each field after each update, and for each accessor after each update of another field: all true by
rfl, all simp lemmas, so that no proof unfolds a record update. -/

namespace Sys2Proof.Machine

variable (s : State)

/-! ### `setV` -/

@[simp] theorem setV_v (x : Reg) (b : Byte) : (setV x b s).v = s.v.set x.val b := rfl
@[simp] theorem setV_i (x : Reg) (b : Byte) : (setV x b s).i = s.i := rfl
@[simp] theorem setV_pc (x : Reg) (b : Byte) : (setV x b s).pc = s.pc := rfl
@[simp] theorem setV_stack (x : Reg) (b : Byte) : (setV x b s).stack = s.stack := rfl
@[simp] theorem setV_dt (x : Reg) (b : Byte) : (setV x b s).dt = s.dt := rfl
@[simp] theorem setV_st (x : Reg) (b : Byte) : (setV x b s).st = s.st := rfl
@[simp] theorem setV_mem (x : Reg) (b : Byte) : (setV x b s).mem = s.mem := rfl
@[simp] theorem setV_fb (x : Reg) (b : Byte) : (setV x b s).fb = s.fb := rfl
@[simp] theorem setV_keys (x : Reg) (b : Byte) : (setV x b s).keys = s.keys := rfl
@[simp] theorem setV_run (x : Reg) (b : Byte) : (setV x b s).run = s.run := rfl
@[simp] theorem setV_mode (x : Reg) (b : Byte) : (setV x b s).mode = s.mode := rfl
@[simp] theorem setV_draws (x : Reg) (b : Byte) : (setV x b s).draws = s.draws := rfl
@[simp] theorem peek_setV (x : Reg) (b : Byte) (c : Nat) : peek (setV x b s) c = peek s c := rfl
@[simp] theorem portKey_setV (x : Reg) (b : Byte) (j : Reg) : portKey j (setV x b s) = portKey j s := rfl

/-! ### `setI` -/

@[simp] theorem setI_v (a : Word) : (setI a s).v = s.v := rfl
@[simp] theorem setI_i (a : Word) : (setI a s).i = a := rfl
@[simp] theorem setI_pc (a : Word) : (setI a s).pc = s.pc := rfl
@[simp] theorem setI_stack (a : Word) : (setI a s).stack = s.stack := rfl
@[simp] theorem setI_dt (a : Word) : (setI a s).dt = s.dt := rfl
@[simp] theorem setI_st (a : Word) : (setI a s).st = s.st := rfl
@[simp] theorem setI_mem (a : Word) : (setI a s).mem = s.mem := rfl
@[simp] theorem setI_fb (a : Word) : (setI a s).fb = s.fb := rfl
@[simp] theorem setI_keys (a : Word) : (setI a s).keys = s.keys := rfl
@[simp] theorem setI_run (a : Word) : (setI a s).run = s.run := rfl
@[simp] theorem setI_mode (a : Word) : (setI a s).mode = s.mode := rfl
@[simp] theorem setI_draws (a : Word) : (setI a s).draws = s.draws := rfl
@[simp] theorem getV_setI (a : Word) (y : Reg) : getV (setI a s) y = getV s y := rfl
@[simp] theorem peek_setI (a : Word) (c : Nat) : peek (setI a s) c = peek s c := rfl
@[simp] theorem portKey_setI (a : Word) (j : Reg) : portKey j (setI a s) = portKey j s := rfl

/-! ### `setPc` -/

@[simp] theorem setPc_v (a : Word) : (setPc a s).v = s.v := rfl
@[simp] theorem setPc_i (a : Word) : (setPc a s).i = s.i := rfl
@[simp] theorem setPc_pc (a : Word) : (setPc a s).pc = a := rfl
@[simp] theorem setPc_stack (a : Word) : (setPc a s).stack = s.stack := rfl
@[simp] theorem setPc_dt (a : Word) : (setPc a s).dt = s.dt := rfl
@[simp] theorem setPc_st (a : Word) : (setPc a s).st = s.st := rfl
@[simp] theorem setPc_mem (a : Word) : (setPc a s).mem = s.mem := rfl
@[simp] theorem setPc_fb (a : Word) : (setPc a s).fb = s.fb := rfl
@[simp] theorem setPc_keys (a : Word) : (setPc a s).keys = s.keys := rfl
@[simp] theorem setPc_run (a : Word) : (setPc a s).run = s.run := rfl
@[simp] theorem setPc_mode (a : Word) : (setPc a s).mode = s.mode := rfl
@[simp] theorem setPc_draws (a : Word) : (setPc a s).draws = s.draws := rfl
@[simp] theorem getV_setPc (a : Word) (y : Reg) : getV (setPc a s) y = getV s y := rfl
@[simp] theorem peek_setPc (a : Word) (c : Nat) : peek (setPc a s) c = peek s c := rfl
@[simp] theorem portKey_setPc (a : Word) (j : Reg) : portKey j (setPc a s) = portKey j s := rfl

/-! ### `setStack` -/

@[simp] theorem setStack_v (l : List Word) : (setStack l s).v = s.v := rfl
@[simp] theorem setStack_i (l : List Word) : (setStack l s).i = s.i := rfl
@[simp] theorem setStack_pc (l : List Word) : (setStack l s).pc = s.pc := rfl
@[simp] theorem setStack_stack (l : List Word) : (setStack l s).stack = l := rfl
@[simp] theorem setStack_dt (l : List Word) : (setStack l s).dt = s.dt := rfl
@[simp] theorem setStack_st (l : List Word) : (setStack l s).st = s.st := rfl
@[simp] theorem setStack_mem (l : List Word) : (setStack l s).mem = s.mem := rfl
@[simp] theorem setStack_fb (l : List Word) : (setStack l s).fb = s.fb := rfl
@[simp] theorem setStack_keys (l : List Word) : (setStack l s).keys = s.keys := rfl
@[simp] theorem setStack_run (l : List Word) : (setStack l s).run = s.run := rfl
@[simp] theorem setStack_mode (l : List Word) : (setStack l s).mode = s.mode := rfl
@[simp] theorem setStack_draws (l : List Word) : (setStack l s).draws = s.draws := rfl
@[simp] theorem getV_setStack (l : List Word) (y : Reg) : getV (setStack l s) y = getV s y := rfl
@[simp] theorem peek_setStack (l : List Word) (c : Nat) : peek (setStack l s) c = peek s c := rfl
@[simp] theorem portKey_setStack (l : List Word) (j : Reg) : portKey j (setStack l s) = portKey j s := rfl

/-! ### `setDt` -/

@[simp] theorem setDt_v (b : Byte) : (setDt b s).v = s.v := rfl
@[simp] theorem setDt_i (b : Byte) : (setDt b s).i = s.i := rfl
@[simp] theorem setDt_pc (b : Byte) : (setDt b s).pc = s.pc := rfl
@[simp] theorem setDt_stack (b : Byte) : (setDt b s).stack = s.stack := rfl
@[simp] theorem setDt_dt (b : Byte) : (setDt b s).dt = b := rfl
@[simp] theorem setDt_st (b : Byte) : (setDt b s).st = s.st := rfl
@[simp] theorem setDt_mem (b : Byte) : (setDt b s).mem = s.mem := rfl
@[simp] theorem setDt_fb (b : Byte) : (setDt b s).fb = s.fb := rfl
@[simp] theorem setDt_keys (b : Byte) : (setDt b s).keys = s.keys := rfl
@[simp] theorem setDt_run (b : Byte) : (setDt b s).run = s.run := rfl
@[simp] theorem setDt_mode (b : Byte) : (setDt b s).mode = s.mode := rfl
@[simp] theorem setDt_draws (b : Byte) : (setDt b s).draws = s.draws := rfl
@[simp] theorem getV_setDt (b : Byte) (y : Reg) : getV (setDt b s) y = getV s y := rfl
@[simp] theorem peek_setDt (b : Byte) (c : Nat) : peek (setDt b s) c = peek s c := rfl
@[simp] theorem portKey_setDt (b : Byte) (j : Reg) : portKey j (setDt b s) = portKey j s := rfl

/-! ### `setSt` -/

@[simp] theorem setSt_v (b : Byte) : (setSt b s).v = s.v := rfl
@[simp] theorem setSt_i (b : Byte) : (setSt b s).i = s.i := rfl
@[simp] theorem setSt_pc (b : Byte) : (setSt b s).pc = s.pc := rfl
@[simp] theorem setSt_stack (b : Byte) : (setSt b s).stack = s.stack := rfl
@[simp] theorem setSt_dt (b : Byte) : (setSt b s).dt = s.dt := rfl
@[simp] theorem setSt_st (b : Byte) : (setSt b s).st = b := rfl
@[simp] theorem setSt_mem (b : Byte) : (setSt b s).mem = s.mem := rfl
@[simp] theorem setSt_fb (b : Byte) : (setSt b s).fb = s.fb := rfl
@[simp] theorem setSt_keys (b : Byte) : (setSt b s).keys = s.keys := rfl
@[simp] theorem setSt_run (b : Byte) : (setSt b s).run = s.run := rfl
@[simp] theorem setSt_mode (b : Byte) : (setSt b s).mode = s.mode := rfl
@[simp] theorem setSt_draws (b : Byte) : (setSt b s).draws = s.draws := rfl
@[simp] theorem getV_setSt (b : Byte) (y : Reg) : getV (setSt b s) y = getV s y := rfl
@[simp] theorem peek_setSt (b : Byte) (c : Nat) : peek (setSt b s) c = peek s c := rfl
@[simp] theorem portKey_setSt (b : Byte) (j : Reg) : portKey j (setSt b s) = portKey j s := rfl

/-! ### `poke` -/

@[simp] theorem poke_v (a : Nat) (b : Byte) : (poke a b s).v = s.v := rfl
@[simp] theorem poke_i (a : Nat) (b : Byte) : (poke a b s).i = s.i := rfl
@[simp] theorem poke_pc (a : Nat) (b : Byte) : (poke a b s).pc = s.pc := rfl
@[simp] theorem poke_stack (a : Nat) (b : Byte) : (poke a b s).stack = s.stack := rfl
@[simp] theorem poke_dt (a : Nat) (b : Byte) : (poke a b s).dt = s.dt := rfl
@[simp] theorem poke_st (a : Nat) (b : Byte) : (poke a b s).st = s.st := rfl
@[simp] theorem poke_mem (a : Nat) (b : Byte) : (poke a b s).mem = s.mem.write a b := rfl
@[simp] theorem poke_fb (a : Nat) (b : Byte) : (poke a b s).fb = s.fb := rfl
@[simp] theorem poke_keys (a : Nat) (b : Byte) : (poke a b s).keys = s.keys := rfl
@[simp] theorem poke_run (a : Nat) (b : Byte) : (poke a b s).run = s.run := rfl
@[simp] theorem poke_mode (a : Nat) (b : Byte) : (poke a b s).mode = s.mode := rfl
@[simp] theorem poke_draws (a : Nat) (b : Byte) : (poke a b s).draws = s.draws := rfl
@[simp] theorem getV_poke (a : Nat) (b : Byte) (y : Reg) : getV (poke a b s) y = getV s y := rfl
@[simp] theorem portKey_poke (a : Nat) (b : Byte) (j : Reg) : portKey j (poke a b s) = portKey j s := rfl

/-! ### `setFb` -/

@[simp] theorem setFb_v (f : Framebuffer) : (setFb f s).v = s.v := rfl
@[simp] theorem setFb_i (f : Framebuffer) : (setFb f s).i = s.i := rfl
@[simp] theorem setFb_pc (f : Framebuffer) : (setFb f s).pc = s.pc := rfl
@[simp] theorem setFb_stack (f : Framebuffer) : (setFb f s).stack = s.stack := rfl
@[simp] theorem setFb_dt (f : Framebuffer) : (setFb f s).dt = s.dt := rfl
@[simp] theorem setFb_st (f : Framebuffer) : (setFb f s).st = s.st := rfl
@[simp] theorem setFb_mem (f : Framebuffer) : (setFb f s).mem = s.mem := rfl
@[simp] theorem setFb_fb (f : Framebuffer) : (setFb f s).fb = f := rfl
@[simp] theorem setFb_keys (f : Framebuffer) : (setFb f s).keys = s.keys := rfl
@[simp] theorem setFb_run (f : Framebuffer) : (setFb f s).run = s.run := rfl
@[simp] theorem setFb_mode (f : Framebuffer) : (setFb f s).mode = s.mode := rfl
@[simp] theorem setFb_draws (f : Framebuffer) : (setFb f s).draws = s.draws := rfl
@[simp] theorem getV_setFb (f : Framebuffer) (y : Reg) : getV (setFb f s) y = getV s y := rfl
@[simp] theorem peek_setFb (f : Framebuffer) (c : Nat) : peek (setFb f s) c = peek s c := rfl
@[simp] theorem portKey_setFb (f : Framebuffer) (j : Reg) : portKey j (setFb f s) = portKey j s := rfl

/-! ### `setKey` -/

@[simp] theorem setKey_v (k : Reg) (p : Bool) : (setKey k p s).v = s.v := rfl
@[simp] theorem setKey_i (k : Reg) (p : Bool) : (setKey k p s).i = s.i := rfl
@[simp] theorem setKey_pc (k : Reg) (p : Bool) : (setKey k p s).pc = s.pc := rfl
@[simp] theorem setKey_stack (k : Reg) (p : Bool) : (setKey k p s).stack = s.stack := rfl
@[simp] theorem setKey_dt (k : Reg) (p : Bool) : (setKey k p s).dt = s.dt := rfl
@[simp] theorem setKey_st (k : Reg) (p : Bool) : (setKey k p s).st = s.st := rfl
@[simp] theorem setKey_mem (k : Reg) (p : Bool) : (setKey k p s).mem = s.mem := rfl
@[simp] theorem setKey_fb (k : Reg) (p : Bool) : (setKey k p s).fb = s.fb := rfl
@[simp] theorem setKey_keys (k : Reg) (p : Bool) : (setKey k p s).keys = s.keys.set k.val p := rfl
@[simp] theorem setKey_run (k : Reg) (p : Bool) : (setKey k p s).run = s.run := rfl
@[simp] theorem setKey_mode (k : Reg) (p : Bool) : (setKey k p s).mode = s.mode := rfl
@[simp] theorem setKey_draws (k : Reg) (p : Bool) : (setKey k p s).draws = s.draws := rfl
@[simp] theorem getV_setKey (k : Reg) (p : Bool) (y : Reg) : getV (setKey k p s) y = getV s y := rfl
@[simp] theorem peek_setKey (k : Reg) (p : Bool) (c : Nat) : peek (setKey k p s) c = peek s c := rfl

/-! ### `setRun` -/

@[simp] theorem setRun_v (r : RunState) : (setRun r s).v = s.v := rfl
@[simp] theorem setRun_i (r : RunState) : (setRun r s).i = s.i := rfl
@[simp] theorem setRun_pc (r : RunState) : (setRun r s).pc = s.pc := rfl
@[simp] theorem setRun_stack (r : RunState) : (setRun r s).stack = s.stack := rfl
@[simp] theorem setRun_dt (r : RunState) : (setRun r s).dt = s.dt := rfl
@[simp] theorem setRun_st (r : RunState) : (setRun r s).st = s.st := rfl
@[simp] theorem setRun_mem (r : RunState) : (setRun r s).mem = s.mem := rfl
@[simp] theorem setRun_fb (r : RunState) : (setRun r s).fb = s.fb := rfl
@[simp] theorem setRun_keys (r : RunState) : (setRun r s).keys = s.keys := rfl
@[simp] theorem setRun_run (r : RunState) : (setRun r s).run = r := rfl
@[simp] theorem setRun_mode (r : RunState) : (setRun r s).mode = s.mode := rfl
@[simp] theorem setRun_draws (r : RunState) : (setRun r s).draws = s.draws := rfl
@[simp] theorem getV_setRun (r : RunState) (y : Reg) : getV (setRun r s) y = getV s y := rfl
@[simp] theorem peek_setRun (r : RunState) (c : Nat) : peek (setRun r s) c = peek s c := rfl
@[simp] theorem portKey_setRun (r : RunState) (j : Reg) : portKey j (setRun r s) = portKey j s := rfl

/-! ### `setMode` -/

@[simp] theorem setMode_v (m : Mode) : (setMode m s).v = s.v := rfl
@[simp] theorem setMode_i (m : Mode) : (setMode m s).i = s.i := rfl
@[simp] theorem setMode_pc (m : Mode) : (setMode m s).pc = s.pc := rfl
@[simp] theorem setMode_stack (m : Mode) : (setMode m s).stack = s.stack := rfl
@[simp] theorem setMode_dt (m : Mode) : (setMode m s).dt = s.dt := rfl
@[simp] theorem setMode_st (m : Mode) : (setMode m s).st = s.st := rfl
@[simp] theorem setMode_mem (m : Mode) : (setMode m s).mem = s.mem := rfl
@[simp] theorem setMode_fb (m : Mode) : (setMode m s).fb = s.fb := rfl
@[simp] theorem setMode_keys (m : Mode) : (setMode m s).keys = s.keys := rfl
@[simp] theorem setMode_run (m : Mode) : (setMode m s).run = s.run := rfl
@[simp] theorem setMode_mode (m : Mode) : (setMode m s).mode = m := rfl
@[simp] theorem setMode_draws (m : Mode) : (setMode m s).draws = s.draws := rfl
@[simp] theorem getV_setMode (m : Mode) (y : Reg) : getV (setMode m s) y = getV s y := rfl
@[simp] theorem peek_setMode (m : Mode) (c : Nat) : peek (setMode m s) c = peek s c := rfl
@[simp] theorem portKey_setMode (m : Mode) (j : Reg) : portKey j (setMode m s) = portKey j s := rfl

/-! ### The oracle draw (R31) -/

@[simp] theorem drawByte_fst : (drawByte s).1 = Config.draw8 s.draws := rfl
@[simp] theorem drawByte_v : (drawByte s).2.v = s.v := rfl
@[simp] theorem drawByte_i : (drawByte s).2.i = s.i := rfl
@[simp] theorem drawByte_pc : (drawByte s).2.pc = s.pc := rfl
@[simp] theorem drawByte_stack : (drawByte s).2.stack = s.stack := rfl
@[simp] theorem drawByte_dt : (drawByte s).2.dt = s.dt := rfl
@[simp] theorem drawByte_st : (drawByte s).2.st = s.st := rfl
@[simp] theorem drawByte_mem : (drawByte s).2.mem = s.mem := rfl
@[simp] theorem drawByte_fb : (drawByte s).2.fb = s.fb := rfl
@[simp] theorem drawByte_keys : (drawByte s).2.keys = s.keys := rfl
@[simp] theorem drawByte_run : (drawByte s).2.run = s.run := rfl
@[simp] theorem drawByte_mode : (drawByte s).2.mode = s.mode := rfl
@[simp] theorem drawByte_draws : (drawByte s).2.draws = s.draws + 1 := rfl
@[simp] theorem getV_drawByte (y : Reg) : getV (drawByte s).2 y = getV s y := rfl
@[simp] theorem peek_drawByte (c : Nat) : peek (drawByte s).2 c = peek s c := rfl
@[simp] theorem portKey_drawByte (j : Reg) : portKey j (drawByte s).2 = portKey j s := rfl

/-! ### The updates made of these -/

@[simp] theorem advancePc_eq_setPc : advancePc s = setPc (s.pc + 2) s := rfl

@[simp] theorem raiseFault_eq_setRun (c : FaultCause) : raiseFault c s = setRun (.faulted c) s := rfl

/-! ### What was written is read back, and nothing else changes -/

theorem getV_setV (x y : Reg) (b : Byte) : getV (setV x b s) y = if y = x then b else getV s y := by
  unfold getV setV
  rw [Vector.getElem_set]
  by_cases h : y = x
  · simp [h]
  · have : x.val ≠ y.val := fun e => h (Fin.ext e.symm)
    simp [h, this]

@[simp] theorem getV_setV_same (x : Reg) (b : Byte) : getV (setV x b s) x = b := by simp [getV_setV]

@[simp] theorem getV_setV_other {x y : Reg} (h : y ≠ x) (b : Byte) : getV (setV x b s) y = getV s y := by
  simp [getV_setV, h]

theorem portKey_setKey (k j : Reg) (p : Bool) : portKey j (setKey k p s) = if j = k then p else portKey j s := by
  unfold portKey setKey
  rw [Vector.getElem_set]
  by_cases h : j = k
  · simp [h]
  · have : k.val ≠ j.val := fun e => h (Fin.ext e.symm)
    simp [h, this]

/-! ### The reset transaction (R201) -/

section
variable (clear : Bool)
@[simp] theorem resetCore_mem : (resetCore clear s).mem = if clear then [] else s.mem := rfl
@[simp] theorem resetCore_keys : (resetCore clear s).keys = s.keys := rfl
@[simp] theorem resetCore_draws : (resetCore clear s).draws = s.draws := rfl
@[simp] theorem resetCore_i : (resetCore clear s).i = 0 := rfl
@[simp] theorem resetCore_pc : (resetCore clear s).pc = 0x200 := rfl
@[simp] theorem resetCore_stack : (resetCore clear s).stack = [] := rfl
@[simp] theorem resetCore_dt : (resetCore clear s).dt = 0 := rfl
@[simp] theorem resetCore_st : (resetCore clear s).st = 0 := rfl
@[simp] theorem resetCore_fb : (resetCore clear s).fb = fbClear := rfl
@[simp] theorem resetCore_run : (resetCore clear s).run = .ready := rfl
@[simp] theorem resetCore_mode : (resetCore clear s).mode = .extended := rfl
@[simp] theorem getV_resetCore (x : Reg) : getV (resetCore clear s) x = 0 := by
  simp [getV, resetCore, State.reset]
end

/-! ### Frames -/

/-- Frames compose. -/
theorem SameExcept.trans {ps qs : List Part} {s t u : State} (h : SameExcept ps s t) (g : SameExcept qs t u) :
    SameExcept (ps ++ qs) s u := by
  intro p hp
  have hp' : p ∉ ps ∧ p ∉ qs := by simpa using hp
  have h' := h p hp'.1
  have g' := g p hp'.2
  cases p <;> simp only [Part.Same] at * <;> simp [*]

/-- A frame may name more. -/
theorem SameExcept.mono {ps qs : List Part} {s t : State} (h : SameExcept ps s t) (hs : ∀ p ∈ ps, p ∈ qs) :
    SameExcept qs s t := fun p hp => h p (fun hm => hp (hs p hm))

theorem SameExcept.refl (ps : List Part) (s : State) : SameExcept ps s s := by
  intro p _
  cases p <;> simp [Part.Same]

end Sys2Proof.Machine
end

