-- ==== Sys2Proof/Laws/Display.lean ====
section
/-! SUPPORT. The framebuffer (R140) and the drawing of a sprite (R142, R143): the loops of R142 as one closed form for each
pixel and for the collision. -/

namespace Sys2Proof.Machine

theorem fbGet_out (f : Framebuffer) {x y : Nat} (h : ¬ (x < 64 ∧ y < 32)) : fbGet f x y = false := by
  simp [fbGet, h]

theorem fbGet_clear (x y : Nat) : fbGet fbClear x y = false := by
  unfold fbGet fbClear
  split <;> simp

/-- Two framebuffers with the same pixels are the same. -/
theorem fb_ext {f g : Framebuffer} (h : ∀ x y, fbGet f x y = fbGet g x y) : f = g := by
  apply Vector.ext
  intro y hy
  apply Vector.ext
  intro x hx
  simpa [fbGet, hx, hy] using h x y

/-- A flip turns one pixel over, inside the grid only. -/
theorem fbGet_flip (f : Framebuffer) (x y a b : Nat) :
    fbGet (fbFlip x y f) a b = (fbGet f a b ^^ decide (a = x ∧ b = y ∧ x < 64 ∧ y < 32)) := by
  by_cases hin : x < 64 ∧ y < 32
  · by_cases hab : a < 64 ∧ b < 32
    · simp only [fbGet, fbFlip, hin, hab, and_self, dite_true]
      by_cases hb : b = y
      · subst hb
        by_cases ha : a = x
        · subst ha
          simp
        · have : x ≠ a := fun e => ha e.symm
          simp [ha, this]
      · have : y ≠ b := fun e => hb e.symm
        simp [hb, this]
    · have hne : ¬ (a = x ∧ b = y ∧ x < 64 ∧ y < 32) := by rintro ⟨rfl, rfl, h⟩; exact hab h
      simp [fbGet, hab, hne]
  · have hne : ¬ (a = x ∧ b = y ∧ x < 64 ∧ y < 32) := by tauto
    simp [fbFlip, hin]

/-- The bit that a row of a sprite at column `x0` has for column `a` (R143): column c of the row is bit 7 − c. -/
def rowBit (x0 : Nat) (b : Byte) (a : Nat) : Bool :=
  decide (x0 ≤ a ∧ a < x0 + 8) && b.getLsbD (7 - (a - x0))

/-- The bit that a sprite at (x0, y0) with the given rows has for the pixel (a, c). -/
def spriteBit (x0 y0 : Nat) (rows : List Byte) (a c : Nat) : Bool :=
  decide (y0 ≤ c ∧ c < y0 + rows.length) && rowBit x0 (rows.getD (c - y0) 0) a

/-- A pixel inside the grid. -/
abbrev onScreen (a c : Nat) : Prop := a < 64 ∧ c < 32

/-- The first `n` columns of a row. -/
theorem drawColumns_spec (x0 y : Nat) (b : Byte) (d : Framebuffer × Bool) (n : Nat) (hn : n ≤ 8) :
    let e := (List.range n).foldl (fun d col => if b.getLsbD (7 - col) then drawPixel (x0 + col) y d else d) d
    (∀ a c, fbGet e.1 a c =
      (fbGet d.1 a c ^^ (decide (c = y ∧ a < x0 + n ∧ onScreen a c) && rowBit x0 b a))) ∧
    (e.2 = true ↔ d.2 = true ∨ ∃ a, a < x0 + n ∧ rowBit x0 b a = true ∧ fbGet d.1 a y = true) := by
  induction n with
  | zero =>
    refine ⟨fun a c => ?_, ?_⟩
    · simp only [List.range_zero, List.foldl_nil, rowBit]
      by_cases h : c = y ∧ a < x0 + 0 ∧ onScreen a c
      · rw [decide_eq_true h, decide_eq_false (by omega)]; simp
      · rw [decide_eq_false h]; simp
    · simp only [List.range_zero, List.foldl_nil, rowBit]
      constructor
      · exact .inl
      · rintro (h | ⟨a, h1, h2, -⟩)
        · exact h
        · simp at h2; omega
  | succ n ih =>
    obtain ⟨ih1, ih2⟩ := ih (by omega)
    simp only [List.range_succ, List.foldl_append, List.foldl_cons, List.foldl_nil]
    generalize (List.range n).foldl (fun d col => if b.getLsbD (7 - col) then drawPixel (x0 + col) y d else d) d = e at ih1 ih2
    have hself : rowBit x0 b (x0 + n) = b.getLsbD (7 - n) := by
      simp [rowBit]; omega
    by_cases hb : b.getLsbD (7 - n) = true
    · simp only [hb, if_true]
      refine ⟨fun a c => ?_, ?_⟩
      · simp only [drawPixel, fbGet_flip, ih1]
        by_cases hpix : a = x0 + n ∧ c = y
        · obtain ⟨rfl, rfl⟩ := hpix
          rw [hself, hb]
          simp
        · have e1 : decide (a = x0 + n ∧ c = y ∧ x0 + n < 64 ∧ y < 32) = false := decide_eq_false (by tauto)
          have e2 : (c = y ∧ a < x0 + n ∧ onScreen a c) ↔ (c = y ∧ a < x0 + (n + 1) ∧ onScreen a c) := by
            constructor
            · rintro ⟨h1, h2, h3⟩; exact ⟨h1, by omega, h3⟩
            · rintro ⟨h1, h2, h3⟩; exact ⟨h1, by omega, h3⟩
          rw [e1, show decide _ = decide _ from decide_eq_decide.2 e2]
          simp
      · simp only [drawPixel, Bool.or_eq_true, ih2, ih1]
        constructor
        · rintro ((h | ⟨a, h1, h2, h3⟩) | h)
          · exact .inl h
          · exact .inr ⟨a, by omega, h2, h3⟩
          · refine .inr ⟨x0 + n, by omega, hself.trans hb, ?_⟩
            simpa using h
        · rintro (h | ⟨a, h1, h2, h3⟩)
          · exact .inl (.inl h)
          · by_cases ha : a = x0 + n
            · subst ha
              refine .inr ?_
              simp [h3]
            · exact .inl (.inr ⟨a, by omega, h2, h3⟩)
    · simp only [hb, Bool.false_eq_true, if_false]
      have hb' : rowBit x0 b (x0 + n) = false := by rw [hself]; simpa using hb
      refine ⟨fun a c => ?_, ?_⟩
      · rw [ih1]
        by_cases ha : a = x0 + n
        · subst ha; simp [hb']
        · have e2 : (c = y ∧ a < x0 + n ∧ onScreen a c) ↔ (c = y ∧ a < x0 + (n + 1) ∧ onScreen a c) := by
            constructor
            · rintro ⟨h1, h2, h3⟩; exact ⟨h1, by omega, h3⟩
            · rintro ⟨h1, h2, h3⟩; exact ⟨h1, by omega, h3⟩
          rw [show decide _ = decide _ from decide_eq_decide.2 e2]
      · rw [ih2]
        constructor
        · rintro (h | ⟨a, h1, h2, h3⟩)
          · exact .inl h
          · exact .inr ⟨a, by omega, h2, h3⟩
        · rintro (h | ⟨a, h1, h2, h3⟩)
          · exact .inl h
          · by_cases ha : a = x0 + n
            · subst ha; simp [hb'] at h2
            · exact .inr ⟨a, by omega, h2, h3⟩

theorem rowBit_range {x0 : Nat} {b : Byte} {a : Nat} (h : rowBit x0 b a = true) : x0 ≤ a ∧ a < x0 + 8 := by
  simp [rowBit] at h; exact h.1

/-- One row of a sprite: its set bits flip their pixels, and there is a collision where one of those was on. -/
theorem drawRow_spec (x0 y : Nat) (b : Byte) (d : Framebuffer × Bool) :
    (∀ a c, fbGet (drawRow x0 y b d).1 a c =
      (fbGet d.1 a c ^^ (decide (c = y ∧ onScreen a c) && rowBit x0 b a))) ∧
    ((drawRow x0 y b d).2 = true ↔ d.2 = true ∨ ∃ a, rowBit x0 b a = true ∧ fbGet d.1 a y = true) := by
  obtain ⟨h1, h2⟩ := drawColumns_spec x0 y b d 8 (le_refl 8)
  refine ⟨fun a c => ?_, ?_⟩
  · rw [drawRow, h1]
    cases hr : rowBit x0 b a
    · simp
    · have := rowBit_range hr
      congr 2
      exact decide_eq_decide.2 ⟨fun h => ⟨h.1, h.2.2⟩, fun h => ⟨h.1, this.2, h.2⟩⟩
  · rw [drawRow, h2]
    constructor
    · rintro (h | ⟨a, -, h2, h3⟩)
      · exact .inl h
      · exact .inr ⟨a, h2, h3⟩
    · rintro (h | ⟨a, h2, h3⟩)
      · exact .inl h
      · exact .inr ⟨a, (rowBit_range h2).2, h2, h3⟩

/-- A whole sprite: a pixel of the grid ends as its old value exclusive-or the sprite's bit for it, and there is a collision
exactly where a set bit of the sprite falls on a pixel that was on (a pixel off the grid reads as off). -/
theorem drawRows_spec (x0 y0 : Nat) (rows : List Byte) (d : Framebuffer × Bool) :
    (∀ a c, fbGet (drawRows x0 y0 rows d).1 a c =
      (fbGet d.1 a c ^^ (decide (onScreen a c) && spriteBit x0 y0 rows a c))) ∧
    ((drawRows x0 y0 rows d).2 = true ↔
      d.2 = true ∨ ∃ a c, spriteBit x0 y0 rows a c = true ∧ fbGet d.1 a c = true) := by
  induction rows generalizing y0 d with
  | nil =>
    have hs : ∀ a c, spriteBit x0 y0 [] a c = false := by
      intro a c; simp [spriteBit]
    simp [drawRows, hs]
  | cons b rows ih =>
    obtain ⟨i1, i2⟩ := ih (y0 + 1) (drawRow x0 y0 b d)
    obtain ⟨r1, r2⟩ := drawRow_spec x0 y0 b d
    have top : ∀ a, spriteBit x0 y0 (b :: rows) a y0 = rowBit x0 b a := by
      intro a; simp [spriteBit]
    have topT : ∀ a, spriteBit x0 (y0 + 1) rows a y0 = false := by
      intro a; simp [spriteBit]
    have low : ∀ a c, c ≠ y0 → spriteBit x0 y0 (b :: rows) a c = spriteBit x0 (y0 + 1) rows a c := by
      intro a c hc
      by_cases h : y0 + 1 ≤ c ∧ c < y0 + 1 + rows.length
      · obtain ⟨k, hk⟩ : ∃ k, c - y0 = k + 1 := ⟨c - y0 - 1, by omega⟩
        have hk' : c - (y0 + 1) = k := by omega
        have hl : y0 ≤ c ∧ c < y0 + (b :: rows).length := by simp; omega
        unfold spriteBit
        rw [decide_eq_true h, decide_eq_true hl, hk, hk']
        simp
      · have h' : ¬ (y0 ≤ c ∧ c < y0 + (b :: rows).length) := by simp; omega
        unfold spriteBit
        rw [decide_eq_false h, decide_eq_false h']
        simp
    refine ⟨fun a c => ?_, ?_⟩
    · simp only [drawRows, i1, r1]
      by_cases hc : c = y0
      · subst hc
        simp [top, topT]
      · simp [low a c hc, hc]
    · simp only [drawRows, i2, r2]
      constructor
      · rintro ((h | ⟨a, h1, h2⟩) | ⟨a, c, h1, h2⟩)
        · exact .inl h
        · exact .inr ⟨a, y0, (top a).trans h1, h2⟩
        · have hc : c ≠ y0 := by rintro rfl; rw [topT] at h1; cases h1
          rw [r1] at h2
          refine .inr ⟨a, c, (low a c hc).trans h1, ?_⟩
          simpa [hc] using h2
      · rintro (h | ⟨a, c, h1, h2⟩)
        · exact .inl (.inl h)
        · by_cases hc : c = y0
          · subst hc
            exact .inl (.inr ⟨a, (top a).symm.trans h1, h2⟩)
          · refine .inr ⟨a, c, (low a c hc).symm.trans h1, ?_⟩
            rw [r1]
            simpa [hc] using h2

end Sys2Proof.Machine
end

