-- ==== Sys2Proof/Laws/Memory.lean ====
section
/-! SUPPORT. Memory: what a cell holds after a write, the canonical form kept by every operation, and for each bounds-checked
operation of 20_memory.md everything it can do. -/

namespace Sys2Proof.Machine

/-! ## The list of cells -/

theorem Memory.read_erase (m : Memory) (a c : Nat) :
    (m.erase a).read c = if c = a then Memory.resetByte c else m.read c := by
  induction m with
  | nil => simp [Memory.erase, Memory.read]
  | cons e m ih =>
    obtain ⟨b, w⟩ := e
    simp only [Memory.erase] at ih
    by_cases hb : b = a <;> by_cases hc : c = b <;>
      simp_all [Memory.erase, Memory.read]

theorem Memory.read_insert (m : Memory) (a c : Nat) (v : Byte) :
    (m.insert a v).read c = if c = a then v else m.read c := by
  induction m with
  | nil => simp [Memory.insert, Memory.read]
  | cons e m ih =>
    obtain ⟨b, w⟩ := e
    simp only [Memory.insert]
    split
    · simp [Memory.read]
    · split
      · rename_i _ h
        subst h
        by_cases hc : c = a <;> simp [Memory.read, hc]
      · rename_i _ h
        by_cases hc : c = b
        · have : b ≠ a := fun e => h e.symm
          simp [Memory.read, hc, this]
        · simp [Memory.read, hc, ih]

/-- A write to a cell is read back, and every other address reads as before; there is no cell from 4096 on. -/
theorem Memory.read_write (m : Memory) (a c : Nat) (v : Byte) :
    (m.write a v).read c = if c = a ∧ a < 4096 then v else m.read c := by
  unfold Memory.write
  by_cases ha : a < 4096
  · by_cases hv : v = Memory.resetByte a
    · by_cases hc : c = a
      · subst hc
        simp [ha, hv, Memory.read_erase]
      · simp [ha, hv, hc, Memory.read_erase]
    · simp [ha, hv, Memory.read_insert]
  · simp [ha]

theorem Memory.wf_nil : Memory.wf [] := by simp [Memory.wf]

theorem Memory.wf_erase {m : Memory} (h : m.wf) (a : Nat) : (m.erase a).wf := by
  refine ⟨h.1.filter _, fun c hc => h.2 c (List.mem_of_mem_filter hc)⟩

theorem Memory.mem_insert {m : Memory} {a : Nat} {v : Byte} {e : Host.Cell} (h : e ∈ m.insert a v) :
    e = (a, v) ∨ e ∈ m := by
  induction m with
  | nil => simpa [Memory.insert] using h
  | cons f m ih =>
    obtain ⟨b, w⟩ := f
    simp only [Memory.insert] at h
    split at h
    · simpa using h
    · split at h
      · simp only [List.mem_cons] at h ⊢
        tauto
      · simp only [List.mem_cons] at h ⊢
        rcases h with h | h
        · exact .inr (.inl h)
        · rcases ih h with h | h
          · exact .inl h
          · exact .inr (.inr h)

theorem Memory.wf_insert {m : Memory} (h : m.wf) {a : Nat} {v : Byte} (ha : a < 4096) (hv : v ≠ Memory.resetByte a) :
    (m.insert a v).wf := by
  refine ⟨?_, fun c hc => ?_⟩
  · have hp := h.1
    clear h
    induction m with
    | nil => simp [Memory.insert]
    | cons f m ih =>
      obtain ⟨b, w⟩ := f
      rw [List.pairwise_cons] at hp
      simp only [Memory.insert]
      split
      · rename_i hlt
        refine List.pairwise_cons.2 ⟨fun e he => ?_, List.pairwise_cons.2 hp⟩
        rcases List.mem_cons.1 he with rfl | he
        · exact hlt
        · exact lt_trans hlt (hp.1 e he)
      · split
        · rename_i heq
          subst heq
          exact List.pairwise_cons.2 hp
        · rename_i h1 h2
          refine List.pairwise_cons.2 ⟨fun e he => ?_, ih hp.2⟩
          rcases Memory.mem_insert he with rfl | he
          · simp only; omega
          · exact hp.1 e he
  · rcases Memory.mem_insert hc with rfl | hc
    · exact ⟨ha, hv⟩
    · exact h.2 c hc

/-- Every write keeps the canonical form. -/
theorem Memory.wf_write {m : Memory} (h : m.wf) (a : Nat) (v : Byte) : (m.write a v).wf := by
  unfold Memory.write
  split
  · rename_i ha
    split
    · exact Memory.wf_erase h a
    · rename_i hv
      exact Memory.wf_insert h ha hv
  · exact h

/-! ## One cell of the state -/

theorem peek_poke (s : State) (a c : Nat) (b : Byte) :
    peek (poke a b s) c = if c = a ∧ a < 4096 then b else peek s c := Memory.read_write s.mem a c b

theorem poke_keeps_wf {s : State} (h : s.mem.wf) (a : Nat) (b : Byte) : (poke a b s).mem.wf := Memory.wf_write h a b

/-! ## The bounds checks (R51, R52, R65) -/

theorem memCheck_ok {a n : Nat} (h : n = 0 ∨ a + n ≤ 4096) : memCheck a n = .ok () := by
  unfold memCheck
  simp only [Config.memSize]
  split
  · rfl
  · rw [if_neg (by omega)]

theorem memCheck_error {a n : Nat} (h : n ≠ 0) (h' : 4096 < a + n) :
    memCheck a n = .error (.memoryFault (max a 4096)) := by
  unfold memCheck
  simp only [Config.memSize]
  rw [if_neg h, if_pos (by omega)]

/-- Everything the range check can do: it passes, or it reports the lowest address out of bounds. -/
theorem memCheck_cases (a n : Nat) :
    ((n = 0 ∨ a + n ≤ 4096) ∧ memCheck a n = .ok ()) ∨
    (n ≠ 0 ∧ 4096 < a + n ∧ memCheck a n = .error (.memoryFault (max a 4096))) := by
  by_cases h : n = 0 ∨ a + n ≤ 4096
  · exact .inl ⟨h, memCheck_ok h⟩
  · exact .inr ⟨by omega, by omega, memCheck_error (by omega) (by omega)⟩

theorem memRead_ok (s : State) {a : Nat} (h : a < 4096) : memRead s a = .ok (peek s a) := by simp [memRead, h]

theorem memWrite_ok (s : State) {a : Nat} (h : a < 4096) (b : Byte) : memWrite a b s = .ok (poke a b s) := by
  simp [memWrite, h]

/-- Reads whose whole range is in bounds cannot fault: they give the cells, lowest address first. -/
theorem readBytes_ok (s : State) {a n : Nat} (h : n = 0 ∨ a + n ≤ 4096) :
    readBytes s a n = .ok ((List.range n).map fun k => peek s (a + k)) := by
  induction n generalizing a with
  | zero => rfl
  | succ n ih =>
    have h1 : a < 4096 := by omega
    simp only [readBytes, memRead_ok s h1, ih (a := a + 1) (by omega)]
    rw [List.range_succ_eq_map]
    simp [Function.comp_def, Nat.add_assoc, Nat.add_comm 1]

/-- Everything a range load can do. -/
theorem loadRange_cases (s : State) (a n : Nat) :
    ((n = 0 ∨ a + n ≤ 4096) ∧ loadRange s a n = .ok ((List.range n).map fun k => peek s (a + k))) ∨
    (n ≠ 0 ∧ 4096 < a + n ∧ loadRange s a n = .error (.memoryFault (max a 4096))) := by
  rcases memCheck_cases a n with ⟨h, e⟩ | ⟨h, h', e⟩
  · exact .inl ⟨h, by simp [loadRange, e, readBytes_ok s h]⟩
  · exact .inr ⟨h, h', by simp [loadRange, e]⟩

theorem loadRange_ok (s : State) {a n : Nat} (h : n = 0 ∨ a + n ≤ 4096) :
    loadRange s a n = .ok ((List.range n).map fun k => peek s (a + k)) := by
  simp [loadRange, memCheck_ok h, readBytes_ok s h]

/-- Memory with the given bytes from `a` on: what a range store leaves. -/
theorem writeBytes_ok (s : State) {a : Nat} {bs : List Byte} (h : bs = [] ∨ a + bs.length ≤ 4096) :
    writeBytes a bs s = .ok (pokeBytes a bs s) := by
  induction bs generalizing a s with
  | nil => rfl
  | cons b bs ih =>
    have h1 : a < 4096 := by simp at h; omega
    simp only [writeBytes, memWrite_ok s h1, pokeBytes]
    exact ih (poke a b s) (by simp at h; omega)

/-- Everything a range store can do. -/
theorem storeRange_cases (s : State) (a : Nat) (bs : List Byte) :
    ((bs.length = 0 ∨ a + bs.length ≤ 4096) ∧ storeRange a bs s = .ok (pokeBytes a bs s)) ∨
    (bs.length ≠ 0 ∧ 4096 < a + bs.length ∧ storeRange a bs s = .error (.memoryFault (max a 4096))) := by
  rcases memCheck_cases a bs.length with ⟨h, e⟩ | ⟨h, h', e⟩
  · refine .inl ⟨h, ?_⟩
    simp only [storeRange, e]
    exact writeBytes_ok s (h.imp List.eq_nil_of_length_eq_zero id)
  · exact .inr ⟨h, h', by simp [storeRange, e]⟩

theorem storeRange_ok (s : State) {a : Nat} {bs : List Byte} (h : a + bs.length ≤ 4096) :
    storeRange a bs s = .ok (pokeBytes a bs s) := by
  simp only [storeRange, memCheck_ok (.inr h)]
  exact writeBytes_ok s (.inr h)

/-! ## A block of bytes in memory -/

/-- What every address reads as after a block of bytes is written. -/
theorem peek_pokeBytes (s : State) (a c : Nat) (bs : List Byte) (h : a + bs.length ≤ 4096) :
    peek (pokeBytes a bs s) c = if a ≤ c ∧ c < a + bs.length then bs.getD (c - a) 0 else peek s c := by
  induction bs generalizing a s with
  | nil => simp [pokeBytes]
  | cons b bs ih =>
    simp only [List.length_cons] at h
    simp only [pokeBytes, List.length_cons]
    rw [ih (poke a b s) (a + 1) (by omega), peek_poke]
    by_cases h1 : c = a
    · subst h1
      rw [if_neg (by omega), if_pos (by omega), if_pos (by omega)]
      simp
    · by_cases h2 : a + 1 ≤ c ∧ c < a + 1 + bs.length
      · rw [if_pos h2, if_pos (by omega)]
        obtain ⟨d, hd⟩ : ∃ d, c - a = d + 1 := ⟨c - a - 1, by omega⟩
        rw [hd, show c - (a + 1) = d by omega]
        simp
      · rw [if_neg h2, if_neg (by omega), if_neg (by omega)]

theorem pokeBytes_keeps_wf {s : State} (h : s.mem.wf) (a : Nat) (bs : List Byte) : (pokeBytes a bs s).mem.wf := by
  induction bs generalizing a s with
  | nil => exact h
  | cons b bs ih => exact ih (poke_keeps_wf h a b) (a + 1)

/-- A block write changes memory only. -/
theorem pokeBytes_eq (a : Nat) (bs : List Byte) (s : State) :
    pokeBytes a bs s = { s with mem := (pokeBytes a bs s).mem } := by
  induction bs generalizing a s with
  | nil => rfl
  | cons b bs ih =>
    simp only [pokeBytes]
    conv_lhs => rw [ih]
    rfl

section
variable (s : State) (a : Nat) (bs : List Byte)
@[simp] theorem pokeBytes_v : (pokeBytes a bs s).v = s.v := by rw [pokeBytes_eq]
@[simp] theorem pokeBytes_i : (pokeBytes a bs s).i = s.i := by rw [pokeBytes_eq]
@[simp] theorem pokeBytes_pc : (pokeBytes a bs s).pc = s.pc := by rw [pokeBytes_eq]
@[simp] theorem pokeBytes_stack : (pokeBytes a bs s).stack = s.stack := by rw [pokeBytes_eq]
@[simp] theorem pokeBytes_dt : (pokeBytes a bs s).dt = s.dt := by rw [pokeBytes_eq]
@[simp] theorem pokeBytes_st : (pokeBytes a bs s).st = s.st := by rw [pokeBytes_eq]
@[simp] theorem pokeBytes_fb : (pokeBytes a bs s).fb = s.fb := by rw [pokeBytes_eq]
@[simp] theorem pokeBytes_keys : (pokeBytes a bs s).keys = s.keys := by rw [pokeBytes_eq]
@[simp] theorem pokeBytes_run : (pokeBytes a bs s).run = s.run := by rw [pokeBytes_eq]
@[simp] theorem pokeBytes_mode : (pokeBytes a bs s).mode = s.mode := by rw [pokeBytes_eq]
@[simp] theorem pokeBytes_draws : (pokeBytes a bs s).draws = s.draws := by rw [pokeBytes_eq]
@[simp] theorem getV_pokeBytes (x : Reg) : getV (pokeBytes a bs s) x = getV s x := by simp [getV]
@[simp] theorem portKey_pokeBytes (k : Reg) : portKey k (pokeBytes a bs s) = portKey k s := by simp [portKey]
end

/-! ## The fetch (R91) -/

/-- Everything a fetch can do. -/
theorem fetchWord_cases (s : State) :
    (s.pc.toNat < 4095 ∧ fetchWord s = .ok (wordOfBytes (peek s s.pc.toNat) (peek s (s.pc.toNat + 1)))) ∨
    (4095 ≤ s.pc.toNat ∧ fetchWord s = .error (.memoryFault (max s.pc.toNat 4096))) := by
  rcases loadRange_cases s s.pc.toNat 2 with ⟨h, e⟩ | ⟨-, h', e⟩
  · exact .inl ⟨by omega, by simp [fetchWord, e, List.range, List.range.loop]⟩
  · exact .inr ⟨by omega, by simp [fetchWord, e]⟩

theorem fetchWord_ok {s : State} (h : s.pc.toNat < 4095) :
    fetchWord s = .ok (wordOfBytes (peek s s.pc.toNat) (peek s (s.pc.toNat + 1))) := by
  rcases fetchWord_cases s with ⟨-, e⟩ | ⟨h', -⟩
  · exact e
  · omega

theorem fetchWord_error {s : State} (h : 4095 ≤ s.pc.toNat) :
    fetchWord s = .error (.memoryFault (max s.pc.toNat 4096)) := by
  rcases fetchWord_cases s with ⟨h', -⟩ | ⟨-, e⟩
  · omega
  · exact e

end Sys2Proof.Machine
end

