-- ==== Sys2Proof/Laws/Ops.lean ====
section
/-! SUPPORT. The other shared operations: the call stack, the flags, register blocks, the block increment, skips, the end of an
execution; and for each instruction that can fault its two outcomes. -/

namespace Sys2Proof.Machine

/-! ## The parameters at their defaults -/

@[simp] theorem stackLimit_default : stackLimit = none := rfl

@[simp] theorem keyOob_default : keyOob = .notPressed := rfl

@[simp] theorem flagOrder_default : flagOrder = .resultThenFlag := rfl

/-! ## Ends of an execution, stack, skips -/

@[simp] theorem complete_ok (s t : State) : complete s (.ok t) = .next t := rfl

@[simp] theorem complete_error (s : State) (c : FaultCause) : complete s (.error c) = .next (raiseFault c s) := rfl

/-- Whatever an execution gives, it completes in a next state. -/
theorem complete_next (s : State) (r : Except FaultCause State) : ∃ t, complete s r = .next t := by
  cases r <;> exact ⟨_, rfl⟩

/-- With no limit on the stack's depth (D16), a push always succeeds. -/
@[simp] theorem pushStack_none (a : Word) (s : State) : pushStack none a s = .ok (setStack (a :: s.stack) s) := rfl

/-- Under a limit a push succeeds below it, and is refused from it on. -/
theorem pushStack_some (n : Nat) (a : Word) (s : State) :
    (s.stack.length < n ∧ pushStack (some n) a s = .ok (setStack (a :: s.stack) s)) ∨
    (n ≤ s.stack.length ∧ pushStack (some n) a s = .error .stackLimitReached) := by
  rcases Nat.lt_or_ge s.stack.length n with h | h
  · exact .inl ⟨h, by simp [pushStack, h]⟩
  · exact .inr ⟨h, by simp [pushStack, Nat.not_lt.mpr h]⟩

theorem popStack_nil {s : State} (h : s.stack = []) : popStack s = .error .stackUnderflow := by simp [popStack, h]

theorem popStack_cons {s : State} {a : Word} {l : List Word} (h : s.stack = a :: l) :
    popStack s = .ok (a, setStack l s) := by simp [popStack, h]

@[simp] theorem skipIf_true (s : State) : skipIf true s = setPc (s.pc + 2) s := rfl

@[simp] theorem skipIf_false (s : State) : skipIf false s = s := rfl

theorem skipIf_eq (b : Bool) (s : State) : skipIf b s = setPc (if b then s.pc + 2 else s.pc) s := by
  cases b <;> rfl

@[simp] theorem pressed_notPressed (b : Byte) (s : State) : pressed .notPressed b s = .ok (heldKey b s) := rfl

theorem heldKey_key {b : Byte} {k : Reg} (h : b.toNat = k.val) (s : State) : heldKey b s = portKey k s := by
  have hb : b.toNat < 16 := h ▸ k.isLt
  unfold heldKey portKey
  rw [dif_pos hb]
  congr 1

theorem heldKey_noKey {b : Byte} (h : 16 ≤ b.toNat) (s : State) : heldKey b s = false := by
  unfold heldKey
  rw [dif_neg (by omega)]

theorem toNat_and_fifteen (b : Byte) : (b &&& 0xF).toNat = b.toNat % 16 := by
  rw [BitVec.toNat_and]
  exact Nat.and_two_pow_sub_one_eq_mod b.toNat 4

/-- A code that names a key reads that key's flag, whatever `KEY_OOB` is (R156). -/
theorem pressed_key {b : Byte} {k : Reg} (h : b.toNat = k.val) (oob : KeyOob) (s : State) :
    pressed oob b s = .ok (portKey k s) := by
  have hb : b.toNat < 16 := h ▸ k.isLt
  have hm : (b &&& 0xF).toNat = k.val := by rw [toNat_and_fifteen]; omega
  cases oob
  · simp only [pressed, heldKey_key h]
  · simp only [pressed, heldKey_key hm]
  · simp only [pressed, hb, if_true, heldKey_key h]

/-- A code that names no key is what `KEY_OOB` says (D13): not pressed, the key of its low four bits, or a fault. -/
theorem pressed_noKey {b : Byte} (h : 16 ≤ b.toNat) (oob : KeyOob) (s : State) :
    pressed oob b s = match oob with
      | .notPressed => .ok false
      | .masked => .ok (portKey (regOfBits (b.extractLsb' 0 4)) s)
      | .fault => .error (.keyCodeOutOfRange b) := by
  cases oob
  · simp only [pressed, heldKey_noKey h]
  · have hm : (b &&& 0xF).toNat = (regOfBits (b.extractLsb' 0 4)).val := by
      rw [toNat_and_fifteen]
      simp [regOfBits]
    simp only [pressed, heldKey_key hm]
  · simp only [pressed, Nat.not_lt.mpr h, if_false]

/-! ## Flags -/

/-- Everything the writing of a result and its flag does, the flag last (R111, D8): the flag is in `VF`, the result in `V[x]`
unless that is `VF`. -/
theorem getV_writeResultFlag (x y : Reg) (r : Byte × Bool) (s : State) :
    getV (writeResultFlag .resultThenFlag x r s) y = if y = 15 then flagByte r.2 else if y = x then r.1 else getV s y := by
  simp only [writeResultFlag]
  rw [getV_setV, getV_setV]

/-- The same with the flag first: where `x` is 15 the result survives. -/
theorem getV_writeFlagResult (x y : Reg) (r : Byte × Bool) (s : State) :
    getV (writeResultFlag .flagThenResult x r s) y = if y = x then r.1 else if y = 15 then flagByte r.2 else getV s y := by
  simp only [writeResultFlag]
  rw [getV_setV, getV_setV]

/-- The order of the two writes shows only where the result goes to `VF`. -/
theorem writeResultFlag_order {x : Reg} (h : x ≠ 15) (o : FlagOrder) (y : Reg) (r : Byte × Bool) (s : State) :
    getV (writeResultFlag o x r s) y = if y = 15 then flagByte r.2 else if y = x then r.1 else getV s y := by
  cases o
  · exact getV_writeResultFlag x y r s
  · rw [getV_writeFlagResult]
    by_cases h1 : y = x <;> by_cases h2 : y = 15 <;> simp_all

theorem writeResultFlag_eq (o : FlagOrder) (x : Reg) (r : Byte × Bool) (s : State) :
    writeResultFlag o x r s = { s with v := (writeResultFlag o x r s).v } := by cases o <;> rfl

theorem flagByte_zero_or_one (b : Bool) : flagByte b = 0 ∨ flagByte b = 1 := by cases b <;> simp [flagByte]

theorem toNat_flagByte (b : Bool) : (flagByte b).toNat = if b then 1 else 0 := by cases b <;> rfl

/-! ## Register blocks -/

@[simp] theorem length_regBlock (x : Reg) (s : State) : (regBlock x s).length = x.val + 1 := by
  simp [regBlock]

theorem getD_regBlock (x k : Reg) (s : State) (h : k ≤ x) : (regBlock x s).getD k.val 0 = getV s k := by
  have hk : k.val < x.val + 1 := Nat.lt_succ_of_le h
  have : k.val < (regBlock x s).length := by simpa using hk
  rw [List.getD_eq_getElem _ _ this]
  simp [regBlock, getV]

theorem setRegBlock_eq (k : Nat) (bs : List Byte) (s : State) :
    setRegBlock k bs s = { s with v := (setRegBlock k bs s).v } := by
  induction bs generalizing k s with
  | nil => rfl
  | cons b bs ih =>
    simp only [setRegBlock]
    conv_lhs => rw [ih]

/-- Every register after a block of bytes is loaded from `V[k]` on. -/
theorem getV_setRegBlock (k : Nat) (bs : List Byte) (s : State) (r : Reg) :
    getV (setRegBlock k bs s) r = if k ≤ r.val ∧ r.val < k + bs.length then bs.getD (r.val - k) 0 else getV s r := by
  induction bs generalizing k s with
  | nil => simp [setRegBlock]
  | cons b bs ih =>
    simp only [setRegBlock, List.length_cons]
    rw [ih]
    by_cases h1 : r.val = k
    · rw [if_neg (by omega), if_pos (by omega)]
      simp [getV, h1]
    · by_cases h2 : k + 1 ≤ r.val ∧ r.val < k + 1 + bs.length
      · rw [if_pos h2, if_pos (by omega)]
        obtain ⟨d, hd⟩ : ∃ d, r.val - k = d + 1 := ⟨r.val - k - 1, by omega⟩
        rw [hd, show r.val - (k + 1) = d by omega]
        simp
      · rw [if_neg h2, if_neg (by omega)]
        have : k ≠ r.val := fun e => h1 e.symm
        simp [getV, this]

/-- The block increment changes `I` only. -/
theorem blockIncrement_eq (x : Reg) (s : State) : blockIncrement x s = setI (blockIncrement x s).i s := by
  unfold blockIncrement
  cases s.mode <;> rfl

theorem blockIncrement_legacy {s : State} (h : s.mode = .legacy) (x : Reg) :
    (blockIncrement x s).i.toNat = (s.i.toNat + x.val + 1) % 65536 := by
  simp only [blockIncrement, h, setI_i, BitVec.toNat_add, BitVec.toNat_ofNat]
  omega

theorem blockIncrement_extended {s : State} (h : s.mode = .extended) (x : Reg) : blockIncrement x s = s := by
  simp only [blockIncrement, h]

/-! ### The fields of `setRegBlock` -/

section
variable (k : Nat) (bs : List Byte) (s : State)
@[simp] theorem setRegBlock_i : (setRegBlock k bs s).i = s.i := by rw [setRegBlock_eq]
@[simp] theorem setRegBlock_pc : (setRegBlock k bs s).pc = s.pc := by rw [setRegBlock_eq]
@[simp] theorem setRegBlock_stack : (setRegBlock k bs s).stack = s.stack := by rw [setRegBlock_eq]
@[simp] theorem setRegBlock_dt : (setRegBlock k bs s).dt = s.dt := by rw [setRegBlock_eq]
@[simp] theorem setRegBlock_st : (setRegBlock k bs s).st = s.st := by rw [setRegBlock_eq]
@[simp] theorem setRegBlock_mem : (setRegBlock k bs s).mem = s.mem := by rw [setRegBlock_eq]
@[simp] theorem setRegBlock_fb : (setRegBlock k bs s).fb = s.fb := by rw [setRegBlock_eq]
@[simp] theorem setRegBlock_keys : (setRegBlock k bs s).keys = s.keys := by rw [setRegBlock_eq]
@[simp] theorem setRegBlock_run : (setRegBlock k bs s).run = s.run := by rw [setRegBlock_eq]
@[simp] theorem setRegBlock_mode : (setRegBlock k bs s).mode = s.mode := by rw [setRegBlock_eq]
@[simp] theorem setRegBlock_draws : (setRegBlock k bs s).draws = s.draws := by rw [setRegBlock_eq]
@[simp] theorem peek_setRegBlock (a : Nat) : peek (setRegBlock k bs s) a = peek s a := by simp [peek]
@[simp] theorem portKey_setRegBlock (j : Reg) : portKey j (setRegBlock k bs s) = portKey j s := by simp [portKey]
end

/-! ### The fields of `blockIncrement` -/

section
variable (x : Reg) (s : State)
@[simp] theorem blockIncrement_v : (blockIncrement x s).v = s.v := by rw [blockIncrement_eq]; rfl
@[simp] theorem blockIncrement_pc : (blockIncrement x s).pc = s.pc := by rw [blockIncrement_eq]; rfl
@[simp] theorem blockIncrement_stack : (blockIncrement x s).stack = s.stack := by rw [blockIncrement_eq]; rfl
@[simp] theorem blockIncrement_dt : (blockIncrement x s).dt = s.dt := by rw [blockIncrement_eq]; rfl
@[simp] theorem blockIncrement_st : (blockIncrement x s).st = s.st := by rw [blockIncrement_eq]; rfl
@[simp] theorem blockIncrement_mem : (blockIncrement x s).mem = s.mem := by rw [blockIncrement_eq]; rfl
@[simp] theorem blockIncrement_fb : (blockIncrement x s).fb = s.fb := by rw [blockIncrement_eq]; rfl
@[simp] theorem blockIncrement_keys : (blockIncrement x s).keys = s.keys := by rw [blockIncrement_eq]; rfl
@[simp] theorem blockIncrement_run : (blockIncrement x s).run = s.run := by rw [blockIncrement_eq]; rfl
@[simp] theorem blockIncrement_mode : (blockIncrement x s).mode = s.mode := by rw [blockIncrement_eq]; rfl
@[simp] theorem blockIncrement_draws : (blockIncrement x s).draws = s.draws := by rw [blockIncrement_eq]; rfl
@[simp] theorem getV_blockIncrement (y : Reg) : getV (blockIncrement x s) y = getV s y := by simp [getV]
@[simp] theorem peek_blockIncrement (a : Nat) : peek (blockIncrement x s) a = peek s a := by simp [peek]
@[simp] theorem portKey_blockIncrement (j : Reg) : portKey j (blockIncrement x s) = portKey j s := by simp [portKey]
end

/-! ### The fields of `writeResultFlag` -/

section
variable (o : FlagOrder) (x : Reg) (r : Byte × Bool) (s : State)
@[simp] theorem writeResultFlag_i : (writeResultFlag o x r s).i = s.i := by cases o <;> rfl
@[simp] theorem writeResultFlag_pc : (writeResultFlag o x r s).pc = s.pc := by cases o <;> rfl
@[simp] theorem writeResultFlag_stack : (writeResultFlag o x r s).stack = s.stack := by cases o <;> rfl
@[simp] theorem writeResultFlag_dt : (writeResultFlag o x r s).dt = s.dt := by cases o <;> rfl
@[simp] theorem writeResultFlag_st : (writeResultFlag o x r s).st = s.st := by cases o <;> rfl
@[simp] theorem writeResultFlag_mem : (writeResultFlag o x r s).mem = s.mem := by cases o <;> rfl
@[simp] theorem writeResultFlag_fb : (writeResultFlag o x r s).fb = s.fb := by cases o <;> rfl
@[simp] theorem writeResultFlag_keys : (writeResultFlag o x r s).keys = s.keys := by cases o <;> rfl
@[simp] theorem writeResultFlag_run : (writeResultFlag o x r s).run = s.run := by cases o <;> rfl
@[simp] theorem writeResultFlag_mode : (writeResultFlag o x r s).mode = s.mode := by cases o <;> rfl
@[simp] theorem writeResultFlag_draws : (writeResultFlag o x r s).draws = s.draws := by cases o <;> rfl
@[simp] theorem peek_writeResultFlag (a : Nat) : peek (writeResultFlag o x r s) a = peek s a := by simp [peek]
@[simp] theorem portKey_writeResultFlag (j : Reg) : portKey j (writeResultFlag o x r s) = portKey j s := by simp [portKey]
end

/-! ### The fields of `skipIf` -/

section
variable (b : Bool) (s : State)
@[simp] theorem skipIf_v : (skipIf b s).v = s.v := by rw [skipIf_eq]; rfl
@[simp] theorem skipIf_i : (skipIf b s).i = s.i := by rw [skipIf_eq]; rfl
@[simp] theorem skipIf_stack : (skipIf b s).stack = s.stack := by rw [skipIf_eq]; rfl
@[simp] theorem skipIf_dt : (skipIf b s).dt = s.dt := by rw [skipIf_eq]; rfl
@[simp] theorem skipIf_st : (skipIf b s).st = s.st := by rw [skipIf_eq]; rfl
@[simp] theorem skipIf_mem : (skipIf b s).mem = s.mem := by rw [skipIf_eq]; rfl
@[simp] theorem skipIf_fb : (skipIf b s).fb = s.fb := by rw [skipIf_eq]; rfl
@[simp] theorem skipIf_keys : (skipIf b s).keys = s.keys := by rw [skipIf_eq]; rfl
@[simp] theorem skipIf_run : (skipIf b s).run = s.run := by rw [skipIf_eq]; rfl
@[simp] theorem skipIf_mode : (skipIf b s).mode = s.mode := by rw [skipIf_eq]; rfl
@[simp] theorem skipIf_draws : (skipIf b s).draws = s.draws := by rw [skipIf_eq]; rfl
@[simp] theorem getV_skipIf (y : Reg) : getV (skipIf b s) y = getV s y := by simp [getV]
@[simp] theorem peek_skipIf (a : Nat) : peek (skipIf b s) a = peek s a := by simp [peek]
@[simp] theorem portKey_skipIf (j : Reg) : portKey j (skipIf b s) = portKey j s := by simp [portKey]
@[simp] theorem skipIf_pc : (skipIf b s).pc = if b then s.pc + 2 else s.pc := by rw [skipIf_eq]; rfl
end

/-! ## The instructions that read a parameter, at its default -/

/-- `CALL nnn` (R102). -/
theorem execCall_eq (nnn : BitVec 12) (s : State) :
    execCall nnn s = .next (setPc (addrImm nnn) (setStack (s.pc :: s.stack) s)) := rfl

/-- `SKP Vx` (R153). -/
theorem execSkp_eq (x : Reg) (s : State) : execSkp x s = .next (skipIf (heldKey (getV s x) s) s) := rfl

/-- `SKNP Vx` (R154). -/
theorem execSknp_eq (x : Reg) (s : State) : execSknp x s = .next (skipIf (!heldKey (getV s x) s) s) := rfl

/-- `ADD Vx, Vy` (R118). -/
theorem execAddVxVy_eq (x y : Reg) (s : State) :
    execAddVxVy x y s = .next (writeResultFlag .resultThenFlag x (addCarry (getV s x) (getV s y)) s) := rfl

/-- `SUB Vx, Vy` (R119). -/
theorem execSub_eq (x y : Reg) (s : State) :
    execSub x y s = .next (writeResultFlag .resultThenFlag x (subNoBorrow (getV s x) (getV s y)) s) := rfl

/-- `SHR Vx, Vy` (R120). -/
theorem execShr_eq (x y : Reg) (s : State) :
    execShr x y s = .next (writeResultFlag .resultThenFlag x (shiftRightOut (shiftSource x y s)) s) := rfl

/-- `SUBN Vx, Vy` (R121). -/
theorem execSubn_eq (x y : Reg) (s : State) :
    execSubn x y s = .next (writeResultFlag .resultThenFlag x (subNoBorrow (getV s y) (getV s x)) s) := rfl

/-- `SHL Vx, Vy` (R122). -/
theorem execShl_eq (x y : Reg) (s : State) :
    execShl x y s = .next (writeResultFlag .resultThenFlag x (shiftLeftOut (shiftSource x y s)) s) := rfl

/-! ## The instructions that can fault: their two outcomes -/

/-- `LD B, Vx` (R133). -/
theorem execLdBVx_cases (x : Reg) (s : State) :
    (s.i.toNat + 3 ≤ 4096 ∧ execLdBVx x s = .next (pokeBytes s.i.toNat (bcdDigits (getV s x)) s)) ∨
    (4096 < s.i.toNat + 3 ∧ execLdBVx x s = .next (raiseFault (.memoryFault (max s.i.toNat 4096)) s)) := by
  have hl : (bcdDigits (getV s x)).length = 3 := rfl
  rcases storeRange_cases s (effAddr s 0) (bcdDigits (getV s x)) with ⟨h, e⟩ | ⟨-, h, e⟩
  · refine .inl ⟨?_, by rw [execLdBVx, e]; rfl⟩
    rw [hl] at h
    simp only [effAddr] at h
    omega
  · refine .inr ⟨?_, by rw [execLdBVx, e]; rfl⟩
    rw [hl] at h
    simp only [effAddr] at h
    omega

/-- `LD [I], Vx` (R134). -/
theorem execLdMemVx_cases (x : Reg) (s : State) :
    (s.i.toNat + x.val + 1 ≤ 4096 ∧
      execLdMemVx x s = .next (blockIncrement x (pokeBytes s.i.toNat (regBlock x s) s))) ∨
    (4096 < s.i.toNat + x.val + 1 ∧ execLdMemVx x s = .next (raiseFault (.memoryFault (max s.i.toNat 4096)) s)) := by
  rcases storeRange_cases s (effAddr s 0) (regBlock x s) with ⟨h, e⟩ | ⟨-, h, e⟩
  · refine .inl ⟨?_, by rw [execLdMemVx, e]; rfl⟩
    simp only [length_regBlock, effAddr] at h
    omega
  · refine .inr ⟨?_, by rw [execLdMemVx, e]; rfl⟩
    simp only [length_regBlock, effAddr] at h
    omega

/-- The bytes that a block load reads (R135). -/
def loadedBytes (x : Reg) (s : State) : List Byte := (List.range (x.val + 1)).map fun k => peek s (s.i.toNat + k)

/-- `LD Vx, [I]` (R135). -/
theorem execLdVxMem_cases (x : Reg) (s : State) :
    (s.i.toNat + x.val + 1 ≤ 4096 ∧
      execLdVxMem x s = .next (blockIncrement x (setRegBlock 0 (loadedBytes x s) s))) ∨
    (4096 < s.i.toNat + x.val + 1 ∧ execLdVxMem x s = .next (raiseFault (.memoryFault (max s.i.toNat 4096)) s)) := by
  rcases loadRange_cases s (effAddr s 0) (x.val + 1) with ⟨h, e⟩ | ⟨-, h, e⟩
  · refine .inl ⟨?_, by rw [execLdVxMem, e]; rfl⟩
    simp only [effAddr] at h
    omega
  · refine .inr ⟨?_, by rw [execLdVxMem, e]; rfl⟩
    simp only [effAddr] at h
    omega

/-- The screen and the collision that `DRW` leaves when it completes (R142). -/
def drawn (x y : Reg) (n : BitVec 4) (s : State) : Framebuffer × Bool :=
  drawRows (getV s x).toNat (getV s y).toNat ((List.range n.toNat).map fun k => peek s (s.i.toNat + k)) (s.fb, false)

/-- `DRW Vx, Vy, n` (R142). -/
theorem execDrw_cases (x y : Reg) (n : BitVec 4) (s : State) :
    ((n.toNat = 0 ∨ s.i.toNat + n.toNat ≤ 4096) ∧
      execDrw x y n s = .next (setV vf (flagByte (drawn x y n s).2) (setFb (drawn x y n s).1 s))) ∨
    (n.toNat ≠ 0 ∧ 4096 < s.i.toNat + n.toNat ∧
      execDrw x y n s = .next (raiseFault (.memoryFault (max s.i.toNat 4096)) s)) := by
  rcases loadRange_cases s (effAddr s 0) n.toNat with ⟨h, e⟩ | ⟨hn, h, e⟩
  · exact .inl ⟨h, by rw [execDrw, e]; rfl⟩
  · exact .inr ⟨hn, h, by rw [execDrw, e]; rfl⟩

/-- `RET` (R100). -/
theorem execRet_cases (s : State) :
    (∃ a l, s.stack = a :: l ∧ execRet s = .next (setPc a (setStack l s))) ∨
    (s.stack = [] ∧ execRet s = .next (raiseFault .stackUnderflow s)) := by
  cases h : s.stack with
  | nil => exact .inr ⟨rfl, by rw [execRet, popStack_nil h]; rfl⟩
  | cons a l => exact .inl ⟨a, l, rfl, by rw [execRet, popStack_cons h]; rfl⟩

end Sys2Proof.Machine
end

