-- ==== Sys2Proof/Laws/Cycle.lean ====
section
/-! SUPPORT. The cycle (R90): once, everything a `step` can do. -/

namespace Sys2Proof.Machine

/-- Every instruction completes in a next state: its effect, or the entry of the fault it raises (R185). -/
theorem exec_next (i : Instr) (s : State) : ∃ t, exec i s = .next t := by
  cases i <;> first | exact ⟨_, rfl⟩ | exact complete_next _ _

/-- Everything that the decision of R90's case can give, on any opcode table. -/
theorem cycleCaseWith_cases (rows : List OpRow) (s : State) :
    (∃ c, s.run = .faulted c ∧ cycleCaseWith rows s = .idle (.fault c)) ∨
    (s.run = .halted ∧ cycleCaseWith rows s = .idle .halt) ∨
    (∃ x, s.run = .awaitingInput x ∧ cycleCaseWith rows s = .idle .continue) ∨
    (s.run = .ready ∧ 4095 ≤ s.pc.toNat ∧ cycleCaseWith rows s = .fetchFault (.memoryFault (max s.pc.toNat 4096))) ∨
    (s.run = .ready ∧ s.pc.toNat < 4095 ∧ ∃ w, fetchWord s = .ok w ∧
      ((∃ u, decodeWith rows w = .unknown u ∧ cycleCaseWith rows s = .unknown u) ∨
       (∃ i, decodeWith rows w = .instr i ∧ cycleCaseWith rows s = .run i))) := by
  cases hr : s.run with
  | faulted c => exact .inl ⟨c, rfl, by simp only [cycleCaseWith, hr]⟩
  | halted => exact .inr (.inl ⟨rfl, by simp only [cycleCaseWith, hr]⟩)
  | awaitingInput x => exact .inr (.inr (.inl ⟨x, rfl, by simp only [cycleCaseWith, hr]⟩))
  | ready =>
    refine .inr (.inr (.inr ?_))
    rcases fetchWord_cases s with ⟨h, e⟩ | ⟨h, e⟩
    · refine .inr ⟨rfl, h, _, e, ?_⟩
      cases hd : decodeWith rows (wordOfBytes (peek s s.pc.toNat) (peek s (s.pc.toNat + 1))) with
      | unknown u => exact .inl ⟨u, rfl, by simp only [cycleCaseWith, hr, e, hd]⟩
      | instr i => exact .inr ⟨i, rfl, by simp only [cycleCaseWith, hr, e, hd]⟩
    · exact .inl ⟨rfl, h, by simp only [cycleCaseWith, hr, e]⟩

/-- Everything a `step` can do, with its status (R90, R181). -/
theorem step_cases (s : State) :
    (∃ c, s.run = .faulted c ∧ step s = .next s ∧ stepStatus s = some (.fault c)) ∨
    (s.run = .halted ∧ step s = .next s ∧ stepStatus s = some .halt) ∨
    (∃ x, s.run = .awaitingInput x ∧ step s = .next s ∧ stepStatus s = some .continue) ∨
    (s.run = .ready ∧ 4095 ≤ s.pc.toNat ∧
      step s = .next (raiseFault (.memoryFault (max s.pc.toNat 4096)) s) ∧
      stepStatus s = some (.fault (.memoryFault (max s.pc.toNat 4096)))) ∨
    (s.run = .ready ∧ s.pc.toNat < 4095 ∧ ∃ w, fetchWord s = .ok w ∧
      ((∃ u, decodeWord w = .unknown u ∧ step s = .next (advancePc s) ∧ stepStatus s = some (.unknownOpcode u)) ∨
       (∃ i t, decodeWord w = .instr i ∧ exec i (beforeExec i s) = .next t ∧ step s = .next t ∧
          stepStatus s = some (statusAfter t.run)))) := by
  unfold step cycle stepStatus cycleCase decodeWord
  rcases cycleCaseWith_cases opTable s with ⟨c, h, e⟩ | ⟨h, e⟩ | ⟨x, h, e⟩ | ⟨h, hp, e⟩ | ⟨h, hp, w, hw, ⟨u, hd, e⟩ | ⟨i, hd, e⟩⟩ <;>
    rw [e]
  · exact .inl ⟨c, h, rfl, rfl⟩
  · exact .inr (.inl ⟨h, rfl, rfl⟩)
  · exact .inr (.inr (.inl ⟨x, h, rfl, rfl⟩))
  · exact .inr (.inr (.inr (.inl ⟨h, hp, rfl, rfl⟩)))
  · exact .inr (.inr (.inr (.inr ⟨h, hp, w, hw, .inl ⟨u, hd, rfl, rfl⟩⟩)))
  · obtain ⟨t, ht⟩ := exec_next i (beforeExec i s)
    exact .inr (.inr (.inr (.inr ⟨h, hp, w, hw, .inr ⟨i, t, hd, ht, ht, by simp [CycleCase.status, ht]⟩⟩)))

/-- The case of a word that decodes to an instruction. -/
theorem cycleCase_run {s : State} {w : Word} {i : Instr} (hr : s.run = .ready) (hf : fetchWord s = .ok w)
    (hd : decodeWord w = .instr i) : cycleCase s = .run i := by
  have hd : decodeWith opTable w = .instr i := hd
  simp only [cycleCase, cycleCaseWith, hr, hf, hd]

/-- A step in that case. -/
theorem step_run {s : State} {i : Instr} (h : cycleCase s = .run i) : step s = exec i (beforeExec i s) := by
  simp only [step, cycle, h, CycleCase.effect]

/-- The case depends on the run state, `PC` and memory only. -/
theorem cycleCase_congr {s t : State} (hr : t.run = s.run) (hp : t.pc = s.pc) (hm : t.mem = s.mem) :
    cycleCase t = cycleCase s := by
  have hf : fetchWord t = fetchWord s := by
    have hk : ∀ a, peek t a = peek s a := fun a => by rw [peek, peek, hm]
    rcases fetchWord_cases s with ⟨h, e⟩ | ⟨h, e⟩ <;> rcases fetchWord_cases t with ⟨h', e'⟩ | ⟨h', e'⟩ <;> rw [hp] at h' e'
    · rw [e, e', hk, hk]
    · omega
    · omega
    · rw [e, e']
  simp only [cycleCase, cycleCaseWith, hr, hf]

/-- The sentinel runs in the state as it stands (R92), any other instruction with `PC` advanced (R93). -/
theorem beforeExec_halt (s : State) : beforeExec .halt s = s := rfl

theorem beforeExec_other {i : Instr} (h : i ≠ .halt) (s : State) : beforeExec i s = setPc (s.pc + 2) s := by
  cases i <;> first | rfl | exact absurd rfl h

/-- A fetch that succeeds leaves room for the advance: it does not wrap (R93). -/
theorem toNat_advance {s : State} (h : s.pc.toNat < 4095) : (s.pc + 2).toNat = s.pc.toNat + 2 := by
  rw [BitVec.toNat_add]
  show (s.pc.toNat + 2) % 65536 = _
  omega

end Sys2Proof.Machine
end

