-- ==== Sys2Proof/Laws/Decode.lean ====
section
/-! SUPPORT. The decoder: words and fields as natural numbers, the fields of an encoded word, what each mask of R73 tests in
terms of the fields, and the opcode table's well-formedness (R75, R77). -/

namespace Sys2Proof

/-! ## Register numbers -/

@[simp] theorem regOfBits_bitsOfReg (x : Reg) : regOfBits (bitsOfReg x) = x := by
  apply Fin.ext
  simp [regOfBits, bitsOfReg]

@[simp] theorem bitsOfReg_regOfBits (b : BitVec 4) : bitsOfReg (regOfBits b) = b := by
  simp [regOfBits, bitsOfReg]

@[simp] theorem toNat_bitsOfReg (x : Reg) : (bitsOfReg x).toNat = x.val := by
  simp [bitsOfReg]

/-! ## Words and fields as numbers -/

theorem toNat_append {m n : Nat} (a : BitVec m) (b : BitVec n) : (a ++ b).toNat = a.toNat * 2 ^ n + b.toNat := by
  rw [BitVec.toNat_append, ← Nat.shiftLeft_add_eq_or_of_lt b.isLt, Nat.shiftLeft_eq]

theorem toNat_wordOfBytes (hi lo : Byte) : (wordOfBytes hi lo).toNat = hi.toNat * 256 + lo.toNat := by
  unfold wordOfBytes
  rw [BitVec.toNat_setWidth, toNat_append]
  omega

section
variable (w : Word)

theorem toNat_fieldHi : (fieldHi w).toNat = w.toNat / 256 := by
  simp [fieldHi, BitVec.extractLsb'_toNat, Nat.shiftRight_eq_div_pow]; omega

theorem toNat_fieldLo : (fieldLo w).toNat = w.toNat % 256 := by
  simp [fieldLo, BitVec.extractLsb'_toNat]

theorem toNat_fieldOp : (fieldOp w).toNat = w.toNat / 4096 := by
  simp [fieldOp, BitVec.extractLsb'_toNat, Nat.shiftRight_eq_div_pow]; omega

theorem toNat_fieldNNN : (fieldNNN w).toNat = w.toNat % 4096 := by
  simp [fieldNNN, BitVec.extractLsb'_toNat]

theorem toNat_fieldNN : (fieldNN w).toNat = w.toNat % 256 := by
  simp [fieldNN, BitVec.extractLsb'_toNat]

theorem toNat_fieldN : (fieldN w).toNat = w.toNat % 16 := by
  simp [fieldN, BitVec.extractLsb'_toNat]

theorem val_fieldX : (fieldX w).val = w.toNat / 256 % 16 := by
  simp [fieldX, regOfBits, BitVec.extractLsb'_toNat, Nat.shiftRight_eq_div_pow]

theorem val_fieldY : (fieldY w).val = w.toNat / 16 % 16 := by
  simp [fieldY, regOfBits, BitVec.extractLsb'_toNat, Nat.shiftRight_eq_div_pow]

end

section
variable (op : BitVec 4) (x y : Reg) (n : BitVec 4) (nn : BitVec 8) (nnn : BitVec 12)

theorem toNat_formatA : (formatA op nnn).toNat = op.toNat * 4096 + nnn.toNat := by
  unfold formatA
  rw [BitVec.toNat_setWidth, toNat_append]
  omega

theorem toNat_formatXI : (formatXI op x nn).toNat = op.toNat * 4096 + x.val * 256 + nn.toNat := by
  unfold formatXI
  rw [BitVec.toNat_setWidth, toNat_append, toNat_append, toNat_bitsOfReg]
  omega

theorem toNat_formatXYN : (formatXYN op x y n).toNat = op.toNat * 4096 + x.val * 256 + y.val * 16 + n.toNat := by
  unfold formatXYN
  rw [BitVec.toNat_setWidth, toNat_append, toNat_append, toNat_append, toNat_bitsOfReg, toNat_bitsOfReg]
  omega

/-- Format X is format XI with a fixed low byte. -/
theorem formatX_eq_formatXI : formatX op x nn = formatXI op x nn := rfl

/-! ## The fields of an encoded word -/

@[simp] theorem fieldOp_formatA : fieldOp (formatA op nnn) = op := by
  apply BitVec.eq_of_toNat_eq; rw [toNat_fieldOp, toNat_formatA]; omega

@[simp] theorem fieldNNN_formatA : fieldNNN (formatA op nnn) = nnn := by
  apply BitVec.eq_of_toNat_eq; rw [toNat_fieldNNN, toNat_formatA]; omega

@[simp] theorem fieldOp_formatXI : fieldOp (formatXI op x nn) = op := by
  apply BitVec.eq_of_toNat_eq; rw [toNat_fieldOp, toNat_formatXI]; omega

@[simp] theorem fieldX_formatXI : fieldX (formatXI op x nn) = x := by
  apply Fin.ext; rw [val_fieldX, toNat_formatXI]; omega

@[simp] theorem fieldNN_formatXI : fieldNN (formatXI op x nn) = nn := by
  apply BitVec.eq_of_toNat_eq; rw [toNat_fieldNN, toNat_formatXI]; omega

@[simp] theorem fieldOp_formatXYN : fieldOp (formatXYN op x y n) = op := by
  apply BitVec.eq_of_toNat_eq; rw [toNat_fieldOp, toNat_formatXYN]; omega

@[simp] theorem fieldX_formatXYN : fieldX (formatXYN op x y n) = x := by
  apply Fin.ext; rw [val_fieldX, toNat_formatXYN]; omega

@[simp] theorem fieldY_formatXYN : fieldY (formatXYN op x y n) = y := by
  apply Fin.ext; rw [val_fieldY, toNat_formatXYN]; omega

@[simp] theorem fieldN_formatXYN : fieldN (formatXYN op x y n) = n := by
  apply BitVec.eq_of_toNat_eq; rw [toNat_fieldN, toNat_formatXYN]; omega

end

/-! ## What each mask tests (R73, R75) -/

/-- Two words have the same bits under a mask just when they agree wherever the mask has a 1. -/
theorem and_eq_and_iff (w c m : Word) :
    w &&& m = c &&& m ↔ ∀ i < 16, m.getLsbD i = true → w.getLsbD i = c.getLsbD i := by
  constructor
  · intro h i _ hm
    have := congrArg (fun b : Word => b.getLsbD i) h
    simpa [hm] using this
  · intro h
    apply BitVec.eq_of_getLsbD_eq
    intro i hi
    rw [BitVec.getLsbD_and, BitVec.getLsbD_and]
    by_cases hm : m.getLsbD i = true
    · rw [h i hi hm]
    · simp [hm]

theorem fieldOp_eq_iff (w c : Word) : fieldOp w = fieldOp c ↔ ∀ i < 4, w.getLsbD (12 + i) = c.getLsbD (12 + i) := by
  constructor
  · intro h i hi
    have := congrArg (fun b : BitVec 4 => b.getLsbD i) h
    simpa [fieldOp, hi] using this
  · intro h
    apply BitVec.eq_of_getLsbD_eq
    intro i hi
    simpa [fieldOp, hi] using h i hi

theorem fieldN_eq_iff (w c : Word) : fieldN w = fieldN c ↔ ∀ i < 4, w.getLsbD i = c.getLsbD i := by
  constructor
  · intro h i hi
    have := congrArg (fun b : BitVec 4 => b.getLsbD i) h
    simpa [fieldN, hi] using this
  · intro h
    apply BitVec.eq_of_getLsbD_eq
    intro i hi
    simpa [fieldN, hi] using h i hi

theorem fieldNN_eq_iff (w c : Word) : fieldNN w = fieldNN c ↔ ∀ i < 8, w.getLsbD i = c.getLsbD i := by
  constructor
  · intro h i hi
    have := congrArg (fun b : BitVec 8 => b.getLsbD i) h
    simpa [fieldNN, hi] using this
  · intro h
    apply BitVec.eq_of_getLsbD_eq
    intro i hi
    simpa [fieldNN, hi] using h i hi

/-- Where the masks of R73 have their ones. -/
theorem mask_bits : ∀ i < 16,
    ((0xF000 : Word).getLsbD i = true ↔ 12 ≤ i) ∧
    ((0xF00F : Word).getLsbD i = true ↔ 12 ≤ i ∨ i < 4) ∧
    ((0xF0FF : Word).getLsbD i = true ↔ 12 ≤ i ∨ i < 8) := by decide

/-- The mask 0xF000 (formats A, XI, XYN) tests `OP`. -/
theorem and_F000 {w c : Word} : w &&& 0xF000 = c &&& 0xF000 ↔ fieldOp w = fieldOp c := by
  rw [and_eq_and_iff, fieldOp_eq_iff]
  constructor
  · exact fun h i hi => h (12 + i) (by omega) ((mask_bits _ (by omega)).1.2 (by omega))
  · intro h i hi hm
    have := (mask_bits i hi).1.1 hm
    simpa [show 12 + (i - 12) = i by omega] using h (i - 12) (by omega)

/-- The mask 0xF00F (format XY) tests `OP` and the low nibble. -/
theorem and_F00F {w c : Word} : w &&& 0xF00F = c &&& 0xF00F ↔ fieldOp w = fieldOp c ∧ fieldN w = fieldN c := by
  rw [and_eq_and_iff, fieldOp_eq_iff, fieldN_eq_iff]
  constructor
  · exact fun h => ⟨fun i hi => h (12 + i) (by omega) ((mask_bits _ (by omega)).2.1.2 (by omega)),
      fun i hi => h i (by omega) ((mask_bits _ (by omega)).2.1.2 (by omega))⟩
  · rintro ⟨h1, h2⟩ i hi hm
    rcases (mask_bits i hi).2.1.1 hm with h | h
    · simpa [show 12 + (i - 12) = i by omega] using h1 (i - 12) (by omega)
    · exact h2 i h

/-- The mask 0xF0FF (format X) tests `OP` and the low byte. -/
theorem and_F0FF {w c : Word} : w &&& 0xF0FF = c &&& 0xF0FF ↔ fieldOp w = fieldOp c ∧ fieldNN w = fieldNN c := by
  rw [and_eq_and_iff, fieldOp_eq_iff, fieldNN_eq_iff]
  constructor
  · exact fun h => ⟨fun i hi => h (12 + i) (by omega) ((mask_bits _ (by omega)).2.2.2 (by omega)),
      fun i hi => h i (by omega) ((mask_bits _ (by omega)).2.2.2 (by omega))⟩
  · rintro ⟨h1, h2⟩ i hi hm
    rcases (mask_bits i hi).2.2.1 hm with h | h
    · simpa [show 12 + (i - 12) = i by omega] using h1 (i - 12) (by omega)
    · exact h2 i h

/-! ## The rows -/

section
variable {mn : String} {c w : Word} {mk : Word → Instr}

/-- A row of mask 0xF000 selects the words with its `OP`. -/
theorem selects_F000 (hc : c &&& 0xF000 = c) : OpRow.selects ⟨mn, c, 0xF000, mk⟩ w = (fieldOp w == fieldOp c) := by
  rw [Bool.eq_iff_iff]
  simp only [OpRow.selects, beq_iff_eq]
  conv_lhs => rw [← hc]
  exact and_F000

/-- A row of mask 0xF00F selects the words with its `OP` and its low nibble. -/
theorem selects_F00F (hc : c &&& 0xF00F = c) :
    OpRow.selects ⟨mn, c, 0xF00F, mk⟩ w = (fieldOp w == fieldOp c && fieldN w == fieldN c) := by
  rw [Bool.eq_iff_iff]
  simp only [OpRow.selects, Bool.and_eq_true, beq_iff_eq]
  conv_lhs => rw [← hc]
  exact and_F00F

/-- A row of mask 0xF0FF selects the words with its `OP` and its low byte. -/
theorem selects_F0FF (hc : c &&& 0xF0FF = c) :
    OpRow.selects ⟨mn, c, 0xF0FF, mk⟩ w = (fieldOp w == fieldOp c && fieldNN w == fieldNN c) := by
  rw [Bool.eq_iff_iff]
  simp only [OpRow.selects, Bool.and_eq_true, beq_iff_eq]
  conv_lhs => rw [← hc]
  exact and_F0FF

/-- A row of mask 0xFFFF selects its own word. -/
theorem selects_FFFF : OpRow.selects ⟨mn, c, 0xFFFF, mk⟩ w = (w == c) := by
  have : w &&& (0xFFFF : Word) = w := BitVec.and_allOnes
  simp only [OpRow.selects, this]

end

/-- R75: a word that selects a row is the row's code with the operand bits filled in. -/
theorem eq_code_or_parameters {r : OpRow} {w : Word} (h : r.selects w = true) : w = r.code ||| (w &&& r.parameterMask) := by
  simp only [OpRow.selects, beq_iff_eq] at h
  rw [← h, OpRow.parameterMask]
  ext i hi
  simp only [BitVec.getElem_or, BitVec.getElem_and, BitVec.getElem_not]
  cases w[i] <;> cases r.mask[i] <;> rfl

/-- R75, R77: every row's code lies in its mask, no row matches the sentinel, and no two rows match one word. -/
theorem opTable_wellFormed : tableWellFormed (opTable.map fun r => (r.code, r.mask)) = true := by decide

/-- Everything the decoder can give (R75, R77, R78): the sentinel for the zero word, the instruction of a row that the word selects,
or the word itself as unknown where it selects none. -/
theorem decodeWord_cases (w : Word) :
    (w = 0 ∧ decodeWord w = .instr .halt) ∨
    (w ≠ 0 ∧ ∃ r ∈ opTable, r.selects w = true ∧ decodeWord w = .instr (r.make w)) ∨
    (w ≠ 0 ∧ (∀ r ∈ opTable, r.selects w = false) ∧ decodeWord w = .unknown w) := by
  by_cases hw : w = 0
  · exact .inl ⟨hw, by rw [hw]; rfl⟩
  · refine .inr ?_
    simp only [decodeWord, decodeWith, if_neg hw]
    cases hf : opTable.find? (fun r => r.selects w) with
    | some r =>
      exact .inl ⟨hw, r, List.mem_of_find?_eq_some hf, (List.find?_eq_some_iff_append.mp hf).1, rfl⟩
    | none =>
      exact .inr ⟨hw, fun r hr => by simpa using List.find?_eq_none.mp hf r hr, rfl⟩

end Sys2Proof
end

