-- ==== Sys2Proof/Laws/Parameters.lean ====
section
/-! SUPPORT. The machine under given parameters (R4): at their defaults it is the machine of `exec`, `step` and `State.reset`; and
what each parameter does, for every value of it. -/

namespace Sys2Proof.Machine

/-! ## At the defaults -/

theorem execWith_default (i : Instr) (s : State) : execWith .default i s = exec i s := by cases i <;> rfl

theorem cycleWith_default (s : State) : cycleWith .default s = cycle s := by
  have h : execWith .default = exec := funext fun i => funext fun s => execWith_default i s
  unfold cycleWith
  rw [h]
  rfl

theorem stepWith_default : stepWith .default = step := funext cycleWith_default

theorem stepStatusWith_default (s : State) : stepStatusWith .default s = stepStatus s := by
  have h : execWith .default = exec := funext fun i => funext fun s => execWith_default i s
  unfold stepStatusWith
  rw [h]
  rfl

/-- Writing what unlisted cells read as lists nothing. -/
theorem pokeBytes_resetBytes (a : Nat) (bs : List Byte) (s : State) (hm : s.mem = [])
    (h : ∀ k < bs.length, bs.getD k 0 = Memory.resetByte (a + k)) : pokeBytes a bs s = s := by
  induction bs generalizing a with
  | nil => rfl
  | cons b bs ih =>
    have hb : b = Memory.resetByte a := h 0 (Nat.zero_lt_succ _)
    have hp : poke a b s = s := by
      have : s.mem.write a b = s.mem := by rw [hm, Memory.write, if_pos hb]; simp [Memory.erase]
      rw [poke, this]
    rw [pokeBytes, hp]
    refine ih (a + 1) fun k hk => ?_
    have := h (k + 1) (Nat.succ_lt_succ hk)
    rw [show a + 1 + k = a + (k + 1) by omega]
    simpa using this

theorem getD_default_glyphTable {k : Nat} (h : k < 80) :
    Parameters.default.glyphTable.toList.getD k 0 = Memory.resetByte k := by
  rw [List.getD_eq_getElem _ _ (by simpa using h)]
  simp [Parameters.default, Memory.resetByte]

/-- The default table is what unlisted cells read as, so a reset has nothing to list. -/
theorem pokeBytes_default_glyphs {s : State} (h : s.mem = []) :
    pokeBytes 0 Parameters.default.glyphTable.toList s = s :=
  pokeBytes_resetBytes 0 _ s h fun k hk => by
    rw [Nat.zero_add]
    exact getD_default_glyphTable (by simpa using hk)

theorem resetCoreWith_default (clear : Bool) (s : State) : resetCoreWith .default clear s = resetCore clear s := by
  cases clear
  · rfl
  · exact pokeBytes_default_glyphs rfl

theorem resetWith_default : resetWith .default = State.reset := resetCoreWith_default true State.reset

theorem loadWith_default (bytes : List Byte) (s : State) : loadWith .default bytes s = load bytes s := by
  unfold loadWith
  rw [resetCoreWith_default]
  rfl

theorem transactWith_default (tr : Transaction) (s : State) : transactWith .default tr s = transact tr s := by
  cases tr with
  | step => exact cycleWith_default s
  | reset clear => simp only [transactWith, transact, resetCoreWith_default]
  | load bytes => simp only [transactWith, transact, loadWith_default]
  | tick | keyDown | keyUp | setMode => rfl

theorem responseWith_default (tr : Transaction) (s : State) : responseWith .default tr s = response tr s := by
  cases tr with
  | step => simp only [responseWith, response, stepStatusWith_default]
  | tick | keyDown | keyUp | setMode | reset | load => rfl

theorem runTransactionsWith_default (ts : List Transaction) (s : State) :
    runTransactionsWith .default ts s = runTransactions ts s := by
  induction ts generalizing s with
  | nil => rfl
  | cons t ts ih =>
    simp only [runTransactionsWith, runTransactions, transactWith_default]
    cases transact t s with
    | next s' => exact ih s'
    | fault r => rfl
    | refused r => rfl

/-! ## `GLYPH_TABLE` -/

/-- Every cell after a clearing reset (R201): the table at 0..79, zero elsewhere. -/
theorem peek_resetCoreWith (p : Parameters) (s : State) (a : Nat) :
    peek (resetCoreWith p true s) a = p.glyphTable.toList.getD a 0 := by
  have hl : p.glyphTable.toList.length = 80 := by simp
  simp only [resetCoreWith, if_true]
  rw [peek_pokeBytes _ _ _ _ (by omega), hl]
  by_cases h : a < 80
  · rw [if_pos ⟨by omega, by omega⟩, Nat.sub_zero]
  · rw [if_neg (by omega), List.getD_eq_default _ _ (by omega)]
    have hg : glyphTable.length = 80 := rfl
    show Memory.resetByte a = 0
    exact List.getD_eq_default _ _ (by omega)

/-- A reset under given parameters differs from that at the defaults in memory only (R201). -/
theorem resetCoreWith_eq (p : Parameters) (clear : Bool) (s : State) :
    resetCoreWith p clear s = { resetCore clear s with mem := (resetCoreWith p clear s).mem } := by
  cases clear
  · rfl
  · simp only [resetCoreWith, if_true]
    rw [pokeBytes_eq]

/-- `reset(false)` leaves memory under any parameters (R202). -/
@[simp] theorem resetCoreWith_false (p : Parameters) (s : State) : resetCoreWith p false s = resetCore false s := rfl

theorem resetCoreWith_keeps_wf {s : State} (h : s.mem.wf) (p : Parameters) (clear : Bool) :
    (resetCoreWith p clear s).mem.wf := by
  cases clear
  · exact h
  · exact pokeBytes_keeps_wf Memory.wf_nil 0 _

/-! ## `STACK_LIMIT`, `KEY_OOB`, the flag-write order -/

/-- Everything `CALL` can do under any limit (R102): the call, or where a limit is set and reached, the refusal. -/
theorem execWith_call_cases (p : Parameters) (nnn : BitVec 12) (s : State) :
    ((∀ n, p.stackLimit = some n → s.stack.length < n) ∧
      execWith p (.call nnn) s = .next (setPc (addrImm nnn) (setStack (s.pc :: s.stack) s))) ∨
    (∃ n, p.stackLimit = some n ∧ n ≤ s.stack.length ∧ execWith p (.call nnn) s = .refused .stackLimitReached) := by
  simp only [execWith, callWith]
  cases hl : p.stackLimit with
  | none => exact .inl ⟨by simp, by rw [pushStack_none]⟩
  | some n =>
    rcases pushStack_some n s.pc s with ⟨h, e⟩ | ⟨h, e⟩
    · exact .inl ⟨by rintro m ⟨⟩; exact h, by rw [e]⟩
    · exact .inr ⟨n, rfl, h, by rw [e]⟩

/-- `SKP` and `SKNP` on a code that names a key are the same under every `KEY_OOB` (R156). -/
theorem execWith_skips_key (p : Parameters) {x k : Reg} {s : State} (h : (getV s x).toNat = k.val) :
    execWith p (.skp x) s = .next (skipIf (portKey k s) s) ∧
    execWith p (.sknp x) s = .next (skipIf (!portKey k s) s) := by
  simp only [execWith, skpWith, sknpWith, pressed_key h, and_self]

/-- `SKP` and `SKNP` on a code that names no key, under each `KEY_OOB` (D13). -/
theorem execWith_skips_noKey (p : Parameters) {x : Reg} {s : State} (h : 16 ≤ (getV s x).toNat) :
    (p.keyOob = .notPressed → execWith p (.skp x) s = .next s ∧ execWith p (.sknp x) s = .next (advancePc s)) ∧
    (p.keyOob = .masked →
      execWith p (.skp x) s = .next (skipIf (portKey (regOfBits ((getV s x).extractLsb' 0 4)) s) s) ∧
      execWith p (.sknp x) s = .next (skipIf (!portKey (regOfBits ((getV s x).extractLsb' 0 4)) s) s)) ∧
    (p.keyOob = .fault → execWith p (.skp x) s = .fault (.keyCodeOutOfRange (getV s x)) ∧
      execWith p (.sknp x) s = .fault (.keyCodeOutOfRange (getV s x))) := by
  simp only [execWith, skpWith, sknpWith]
  refine ⟨fun e => ?_, fun e => ?_, fun e => ?_⟩ <;> rw [e, pressed_noKey h] <;> exact ⟨rfl, rfl⟩

/-- The flag-write order changes nothing where the result does not go to `VF` (R111). -/
theorem execWith_addVxVy_order (p : Parameters) {x : Reg} (h : x ≠ 15) (y z : Reg) (s : State) :
    ∃ t, execWith p (.addVxVy x y) s = .next t ∧
      getV t z = if z = 15 then flagByte (addCarry (getV s x) (getV s y)).2
        else if z = x then getV s x + getV s y else getV s z :=
  ⟨_, rfl, writeResultFlag_order h p.flagOrder z _ s⟩

end Sys2Proof.Machine
end

