-- ==== Sys2Proof/Laws/PerInstr.lean ====
section
/-! SUPPORT. The facts about each instruction as syntax, one lemma for each constructor. -/

namespace Sys2Proof.Laws.EncodingFitsRow

/-- R76: the word of an instruction has the opcode value of the table's row with its mnemonic wherever that row's mask has a
one; the sentinel, which has no row (R77), is the all-zero word. -/
def Statement (i : Instr) : Prop :=
  (i = .halt ∧ encode i = 0) ∨ ∃ r ∈ opTable, r.mnemonic = i.mnemonic ∧ r.selects (encode i) = true

theorem halt : Statement .halt := .inl ⟨rfl, rfl⟩
theorem cls : Statement .cls := .inr ⟨⟨"CLS", 0x00E0, 0xFFFF, fun _ => .cls⟩,
  by simp [opTable, opRowsPlain], rfl, by decide⟩
theorem ret : Statement .ret := .inr ⟨⟨"RET", 0x00EE, 0xFFFF, fun _ => .ret⟩,
  by simp [opTable, opRowsPlain], rfl, by decide⟩
theorem jp (nnn : BitVec 12) : Statement (.jp nnn) := .inr ⟨⟨"JP", 0x1000, 0xF000, fun w => .jp (fieldNNN w)⟩,
  by simp [opTable, opRowsPlain], rfl, by rw [selects_F000 (by decide)]; simp [encode]; decide⟩
theorem call (nnn : BitVec 12) : Statement (.call nnn) := .inr ⟨⟨"CALL", 0x2000, 0xF000, fun w => .call (fieldNNN w)⟩,
  by simp [opTable, opRowsPlain], rfl, by rw [selects_F000 (by decide)]; simp [encode]; decide⟩
theorem seVxNn (x : Reg) (nn : BitVec 8) : Statement (.seVxNn x nn) := .inr ⟨⟨"SE_VX_NN", 0x3000, 0xF000, fun w => .seVxNn (fieldX w) (fieldNN w)⟩,
  by simp [opTable, opRowsPlain], rfl, by rw [selects_F000 (by decide)]; simp [encode]; decide⟩
theorem sneVxNn (x : Reg) (nn : BitVec 8) : Statement (.sneVxNn x nn) := .inr ⟨⟨"SNE_VX_NN", 0x4000, 0xF000, fun w => .sneVxNn (fieldX w) (fieldNN w)⟩,
  by simp [opTable, opRowsPlain], rfl, by rw [selects_F000 (by decide)]; simp [encode]; decide⟩
theorem seVxVy (x y : Reg) : Statement (.seVxVy x y) := .inr ⟨⟨"SE_VX_VY", 0x5000, 0xF00F, fun w => .seVxVy (fieldX w) (fieldY w)⟩,
  by simp [opTable, opRowsPlain], rfl, by rw [selects_F00F (by decide)]; simp [encode]; decide⟩
theorem ldVxNn (x : Reg) (nn : BitVec 8) : Statement (.ldVxNn x nn) := .inr ⟨⟨"LD_VX_NN", 0x6000, 0xF000, fun w => .ldVxNn (fieldX w) (fieldNN w)⟩,
  by simp [opTable, opRowsPlain], rfl, by rw [selects_F000 (by decide)]; simp [encode]; decide⟩
theorem addVxNn (x : Reg) (nn : BitVec 8) : Statement (.addVxNn x nn) := .inr ⟨⟨"ADD_VX_NN", 0x7000, 0xF000, fun w => .addVxNn (fieldX w) (fieldNN w)⟩,
  by simp [opTable, opRowsPlain], rfl, by rw [selects_F000 (by decide)]; simp [encode]; decide⟩
theorem ldVxVy (x y : Reg) : Statement (.ldVxVy x y) := .inr ⟨⟨"LD_VX_VY", 0x8000, 0xF00F, fun w => .ldVxVy (fieldX w) (fieldY w)⟩,
  by simp [opTable, opRowsAlu], rfl, by rw [selects_F00F (by decide)]; simp [encode]; decide⟩
theorem orVxVy (x y : Reg) : Statement (.orVxVy x y) := .inr ⟨⟨"OR", 0x8001, 0xF00F, fun w => .orVxVy (fieldX w) (fieldY w)⟩,
  by simp [opTable, opRowsAlu], rfl, by rw [selects_F00F (by decide)]; simp [encode]; decide⟩
theorem andVxVy (x y : Reg) : Statement (.andVxVy x y) := .inr ⟨⟨"AND", 0x8002, 0xF00F, fun w => .andVxVy (fieldX w) (fieldY w)⟩,
  by simp [opTable, opRowsAlu], rfl, by rw [selects_F00F (by decide)]; simp [encode]; decide⟩
theorem xorVxVy (x y : Reg) : Statement (.xorVxVy x y) := .inr ⟨⟨"XOR", 0x8003, 0xF00F, fun w => .xorVxVy (fieldX w) (fieldY w)⟩,
  by simp [opTable, opRowsAlu], rfl, by rw [selects_F00F (by decide)]; simp [encode]; decide⟩
theorem addVxVy (x y : Reg) : Statement (.addVxVy x y) := .inr ⟨⟨"ADD_VX_VY", 0x8004, 0xF00F, fun w => .addVxVy (fieldX w) (fieldY w)⟩,
  by simp [opTable, opRowsAlu], rfl, by rw [selects_F00F (by decide)]; simp [encode]; decide⟩
theorem sub (x y : Reg) : Statement (.sub x y) := .inr ⟨⟨"SUB", 0x8005, 0xF00F, fun w => .sub (fieldX w) (fieldY w)⟩,
  by simp [opTable, opRowsAlu], rfl, by rw [selects_F00F (by decide)]; simp [encode]; decide⟩
theorem shr (x y : Reg) : Statement (.shr x y) := .inr ⟨⟨"SHR", 0x8006, 0xF00F, fun w => .shr (fieldX w) (fieldY w)⟩,
  by simp [opTable, opRowsAlu], rfl, by rw [selects_F00F (by decide)]; simp [encode]; decide⟩
theorem subn (x y : Reg) : Statement (.subn x y) := .inr ⟨⟨"SUBN", 0x8007, 0xF00F, fun w => .subn (fieldX w) (fieldY w)⟩,
  by simp [opTable, opRowsAlu], rfl, by rw [selects_F00F (by decide)]; simp [encode]; decide⟩
theorem shl (x y : Reg) : Statement (.shl x y) := .inr ⟨⟨"SHL", 0x800E, 0xF00F, fun w => .shl (fieldX w) (fieldY w)⟩,
  by simp [opTable, opRowsAlu], rfl, by rw [selects_F00F (by decide)]; simp [encode]; decide⟩
theorem sneVxVy (x y : Reg) : Statement (.sneVxVy x y) := .inr ⟨⟨"SNE_VX_VY", 0x9000, 0xF00F, fun w => .sneVxVy (fieldX w) (fieldY w)⟩,
  by simp [opTable, opRowsPlain], rfl, by rw [selects_F00F (by decide)]; simp [encode]; decide⟩
theorem ldINnn (nnn : BitVec 12) : Statement (.ldINnn nnn) := .inr ⟨⟨"LD_I_NNN", 0xA000, 0xF000, fun w => .ldINnn (fieldNNN w)⟩,
  by simp [opTable, opRowsPlain], rfl, by rw [selects_F000 (by decide)]; simp [encode]; decide⟩
theorem jpV0Nnn (nnn : BitVec 12) : Statement (.jpV0Nnn nnn) := .inr ⟨⟨"JP_V0_NNN", 0xB000, 0xF000, fun w => .jpV0Nnn (fieldNNN w)⟩,
  by simp [opTable, opRowsPlain], rfl, by rw [selects_F000 (by decide)]; simp [encode]; decide⟩
theorem rnd (x : Reg) (nn : BitVec 8) : Statement (.rnd x nn) := .inr ⟨⟨"RND", 0xC000, 0xF000, fun w => .rnd (fieldX w) (fieldNN w)⟩,
  by simp [opTable, opRowsPlain], rfl, by rw [selects_F000 (by decide)]; simp [encode]; decide⟩
theorem drw (x y : Reg) (n : BitVec 4) : Statement (.drw x y n) := .inr ⟨⟨"DRW", 0xD000, 0xF000, fun w => .drw (fieldX w) (fieldY w) (fieldN w)⟩,
  by simp [opTable, opRowsPlain], rfl, by rw [selects_F000 (by decide)]; simp [encode]; decide⟩
theorem skp (x : Reg) : Statement (.skp x) := .inr ⟨⟨"SKP", 0xE09E, 0xF0FF, fun w => .skp (fieldX w)⟩,
  by simp [opTable, opRowsX], rfl, by rw [selects_F0FF (by decide)]; simp [encode, formatX_eq_formatXI]; decide⟩
theorem sknp (x : Reg) : Statement (.sknp x) := .inr ⟨⟨"SKNP", 0xE0A1, 0xF0FF, fun w => .sknp (fieldX w)⟩,
  by simp [opTable, opRowsX], rfl, by rw [selects_F0FF (by decide)]; simp [encode, formatX_eq_formatXI]; decide⟩
theorem ldVxDt (x : Reg) : Statement (.ldVxDt x) := .inr ⟨⟨"LD_VX_DT", 0xF007, 0xF0FF, fun w => .ldVxDt (fieldX w)⟩,
  by simp [opTable, opRowsX], rfl, by rw [selects_F0FF (by decide)]; simp [encode, formatX_eq_formatXI]; decide⟩
theorem ldVxK (x : Reg) : Statement (.ldVxK x) := .inr ⟨⟨"LD_VX_K", 0xF00A, 0xF0FF, fun w => .ldVxK (fieldX w)⟩,
  by simp [opTable, opRowsX], rfl, by rw [selects_F0FF (by decide)]; simp [encode, formatX_eq_formatXI]; decide⟩
theorem ldDtVx (x : Reg) : Statement (.ldDtVx x) := .inr ⟨⟨"LD_DT_VX", 0xF015, 0xF0FF, fun w => .ldDtVx (fieldX w)⟩,
  by simp [opTable, opRowsX], rfl, by rw [selects_F0FF (by decide)]; simp [encode, formatX_eq_formatXI]; decide⟩
theorem ldStVx (x : Reg) : Statement (.ldStVx x) := .inr ⟨⟨"LD_ST_VX", 0xF018, 0xF0FF, fun w => .ldStVx (fieldX w)⟩,
  by simp [opTable, opRowsX], rfl, by rw [selects_F0FF (by decide)]; simp [encode, formatX_eq_formatXI]; decide⟩
theorem addIVx (x : Reg) : Statement (.addIVx x) := .inr ⟨⟨"ADD_I_VX", 0xF01E, 0xF0FF, fun w => .addIVx (fieldX w)⟩,
  by simp [opTable, opRowsX], rfl, by rw [selects_F0FF (by decide)]; simp [encode, formatX_eq_formatXI]; decide⟩
theorem ldFVx (x : Reg) : Statement (.ldFVx x) := .inr ⟨⟨"LD_F_VX", 0xF029, 0xF0FF, fun w => .ldFVx (fieldX w)⟩,
  by simp [opTable, opRowsX], rfl, by rw [selects_F0FF (by decide)]; simp [encode, formatX_eq_formatXI]; decide⟩
theorem ldBVx (x : Reg) : Statement (.ldBVx x) := .inr ⟨⟨"LD_B_VX", 0xF033, 0xF0FF, fun w => .ldBVx (fieldX w)⟩,
  by simp [opTable, opRowsX], rfl, by rw [selects_F0FF (by decide)]; simp [encode, formatX_eq_formatXI]; decide⟩
theorem ldMemVx (x : Reg) : Statement (.ldMemVx x) := .inr ⟨⟨"LD_MEM_VX", 0xF055, 0xF0FF, fun w => .ldMemVx (fieldX w)⟩,
  by simp [opTable, opRowsX], rfl, by rw [selects_F0FF (by decide)]; simp [encode, formatX_eq_formatXI]; decide⟩
theorem ldVxMem (x : Reg) : Statement (.ldVxMem x) := .inr ⟨⟨"LD_VX_MEM", 0xF065, 0xF0FF, fun w => .ldVxMem (fieldX w)⟩,
  by simp [opTable, opRowsX], rfl, by rw [selects_F0FF (by decide)]; simp [encode, formatX_eq_formatXI]; decide⟩

end Sys2Proof.Laws.EncodingFitsRow
end

