-- ==== Sys2Proof/Tests/Slice0.lean ====
section
/-! SUPPORT. The model's own tests: the well-formedness checks on ill-formed terms; the decoding of a written-out word for
every constructor; one step of each instruction on a small state; and for each obligation with hypotheses a state and operands
that meet them. Expected values are the spec's (95_test_vectors.md, by the number of the vector) or computed by hand. -/

open Sys2Proof Sys2Proof.Machine Sys2Proof.Claims

namespace Sys2Proof.Tests

/-! ## Well-formedness -/

theorem test_good_table : tableWellFormed [(0x1000, 0xF000), (0x8004, 0xF00F), (0xF01E, 0xF0FF)] = true := by decide

/-- The code has a bit outside the mask: no word matches the row. -/
theorem test_row_outside_mask : tableWellFormed [(0x1001, 0xF000)] = false := by decide

/-- The row matches the all-zero word. -/
theorem test_row_matches_sentinel : tableWellFormed [(0x0000, 0xF000)] = false := by decide

/-- 0x8004 matches both rows. -/
theorem test_rows_overlap : tableWellFormed [(0x8000, 0xF000), (0x8004, 0xF00F)] = false := by decide

theorem test_instr_wellFormed : (Instr.drw 15 15 15).wellFormed = true := by decide

/-! ## Decoding: a word of every row, written bit by bit from the patterns of R76 (95_test_vectors.md section 2.1) -/

theorem test_decode_zero_format :
    decodeWord 0b0000000000000000 = .instr .halt ∧ decodeWord 0b0000000011100000 = .instr .cls ∧
    decodeWord 0b0000000011101110 = .instr .ret := by decide

theorem test_decode_address_format :
    decodeWord 0b0001101010111100 = .instr (.jp 0xABC) ∧ decodeWord 0b0010101010111100 = .instr (.call 0xABC) ∧
    decodeWord 0b1010101010111100 = .instr (.ldINnn 0xABC) ∧ decodeWord 0b1011101010111100 = .instr (.jpV0Nnn 0xABC) := by
  decide

theorem test_decode_immediate_format :
    decodeWord 0b0011101010111100 = .instr (.seVxNn 0xA 0xBC) ∧ decodeWord 0b0100101010111100 = .instr (.sneVxNn 0xA 0xBC) ∧
    decodeWord 0b0110101010111100 = .instr (.ldVxNn 0xA 0xBC) ∧ decodeWord 0b0111101010111100 = .instr (.addVxNn 0xA 0xBC) ∧
    decodeWord 0b1100101010111100 = .instr (.rnd 0xA 0xBC) := by decide

theorem test_decode_register_format :
    decodeWord 0b0101101010110000 = .instr (.seVxVy 0xA 0xB) ∧ decodeWord 0b1001101010110000 = .instr (.sneVxVy 0xA 0xB) ∧
    decodeWord 0b1000101010110000 = .instr (.ldVxVy 0xA 0xB) ∧ decodeWord 0b1000101010110001 = .instr (.orVxVy 0xA 0xB) ∧
    decodeWord 0b1000101010110010 = .instr (.andVxVy 0xA 0xB) ∧ decodeWord 0b1000101010110011 = .instr (.xorVxVy 0xA 0xB) := by
  decide

theorem test_decode_flag_writers :
    decodeWord 0b1000101010110100 = .instr (.addVxVy 0xA 0xB) ∧ decodeWord 0b1000101010110101 = .instr (.sub 0xA 0xB) ∧
    decodeWord 0b1000101010110110 = .instr (.shr 0xA 0xB) ∧ decodeWord 0b1000101010110111 = .instr (.subn 0xA 0xB) ∧
    decodeWord 0b1000101010111110 = .instr (.shl 0xA 0xB) ∧ decodeWord 0b1101101010111100 = .instr (.drw 0xA 0xB 0xC) := by
  decide

theorem test_decode_key_and_timer :
    decodeWord 0b1110101010011110 = .instr (.skp 0xA) ∧ decodeWord 0b1110101010100001 = .instr (.sknp 0xA) ∧
    decodeWord 0b1111101000000111 = .instr (.ldVxDt 0xA) ∧ decodeWord 0b1111101000001010 = .instr (.ldVxK 0xA) ∧
    decodeWord 0b1111101000010101 = .instr (.ldDtVx 0xA) ∧ decodeWord 0b1111101000011000 = .instr (.ldStVx 0xA) := by decide

theorem test_decode_index_and_memory :
    decodeWord 0b1111101000011110 = .instr (.addIVx 0xA) ∧ decodeWord 0b1111101000101001 = .instr (.ldFVx 0xA) ∧
    decodeWord 0b1111101000110011 = .instr (.ldBVx 0xA) ∧ decodeWord 0b1111101001010101 = .instr (.ldMemVx 0xA) ∧
    decodeWord 0b1111101001100101 = .instr (.ldVxMem 0xA) := by decide

theorem test_decode_unknown :
    decodeWord 0x8AB8 = .unknown 0x8AB8 ∧ decodeWord 0x5AB1 = .unknown 0x5AB1 ∧ decodeWord 0x9ABF = .unknown 0x9ABF ∧
    decodeWord 0xEA9F = .unknown 0xEA9F ∧ decodeWord 0xFA00 = .unknown 0xFA00 ∧ decodeWord 0x0ABC = .unknown 0x0ABC := by decide

theorem test_decode_table_word :
    decodeTableWord 16 0x8AB6 = some (.shr 0xA 0xB) ∧ decodeTableWord 16 0x5AB1 = none := by decide

theorem test_decode_bytes :
    decodeBytes [0x3A, 0xBC, 0x12] = .ok (.seVxNn 0xA 0xBC, [0x12]) ∧ decodeBytes [0x3A] = .error .truncated ∧
    decodeBytes [0x51, 0x21] = .error (.unknownOpcode 0x5121) := by decide

/-! ## One step on a small state -/

/-- What a step that fetches the word `w` in `s` leaves, seen through `f`. -/
def seen {α : Type} (f : State → α) (w : Nat) (s : State) : Option α :=
  match step (s.withFetchWord 16 w) with
  | .next t => some (f t)
  | .fault _ => none
  | .refused _ => none

/-- The state after power-on with some registers set. -/
def withV : List (Reg × Byte) → State
  | [] => State.reset
  | (x, b) :: l => setV x b (withV l)

/-- The same in Legacy mode. -/
def legacyV (l : List (Reg × Byte)) : State := setMode .legacy (withV l)

/-- A register, `VF` and `PC`. -/
def regs (x : Reg) (t : State) : Byte × Byte × Word := (getV t x, getV t 15, t.pc)

/-- `I`, `PC` and the run state. -/
def ctl (t : State) : Word × Word × RunState := (t.i, t.pc, t.run)

theorem test_halt : seen ctl 0x0000 State.reset = some (0, 0x200, .halted) ∧ stepStatus State.reset = some .halt := by decide

theorem test_unknown : seen ctl 0x5121 State.reset = some (0, 0x202, .ready) ∧
    stepStatus (State.reset.withFetchWord 16 0x5121) = some (.unknownOpcode 0x5121) := by decide

/-- Y7, Y9. -/
theorem test_fetch_fault :
    stepStatus (setPc 0xFFF State.reset) = some (.fault (.memoryFault 0x1000)) ∧
    stepStatus (setPc 0x10FE State.reset) = some (.fault (.memoryFault 0x10FE)) := by decide

/-- Y11: an odd `PC`. -/
theorem test_odd_pc : seen (regs 1) 0x612A (setPc 0x201 State.reset) = some (0x2A, 0, 0x203) := by decide

/-- F1, F3. -/
theorem test_jp : seen ctl 0x1204 State.reset = some (0, 0x204, .ready) ∧
    seen ctl 0x1FFF State.reset = some (0, 0xFFF, .ready) := by decide

/-- F18, F19. -/
theorem test_jpV0Nnn : seen ctl 0xB300 (withV [(0, 0x04), (3, 0x10)]) = some (0, 0x304, .ready) ∧
    seen ctl 0xBFFF (withV [(0, 0xFF)]) = some (0, 0x10FE, .ready) := by decide

/-- F4. -/
theorem test_call : seen (fun t => (t.pc, t.stack)) 0x2123 State.reset = some (0x123, [0x202]) := by decide

/-- F6: the top of the stack is the list's head. -/
theorem test_ret : seen (fun t => (t.pc, t.stack)) 0x00EE (setStack [0x300, 0x202] State.reset) = some (0x300, [0x202]) := by
  decide

/-- F7. -/
theorem test_ret_underflow : seen ctl 0x00EE State.reset = some (0, 0x202, .faulted .stackUnderflow) := by decide

/-- F8, F9. -/
theorem test_seVxNn : seen ctl 0x3000 State.reset = some (0, 0x204, .ready) ∧
    seen ctl 0x3000 (withV [(0, 1)]) = some (0, 0x202, .ready) := by decide

/-- F11, F12. -/
theorem test_sneVxNn : seen ctl 0x4325 (withV [(3, 0x24)]) = some (0, 0x204, .ready) ∧
    seen ctl 0x4324 (withV [(3, 0x24)]) = some (0, 0x202, .ready) := by decide

/-- F13, F14. -/
theorem test_seVxVy : seen ctl 0x5120 (withV [(1, 7), (2, 7)]) = some (0, 0x204, .ready) ∧
    seen ctl 0x5120 (withV [(1, 7), (2, 8)]) = some (0, 0x202, .ready) := by decide

/-- F16, F17. -/
theorem test_sneVxVy : seen ctl 0x9120 (withV [(1, 7), (2, 8)]) = some (0, 0x204, .ready) ∧
    seen ctl 0x9330 (withV [(1, 7), (2, 8)]) = some (0, 0x202, .ready) := by decide

/-- A1. -/
theorem test_ldVxNn : seen (regs 0) 0x60EA State.reset = some (0xEA, 0, 0x202) := by decide

/-- A3, A5. -/
theorem test_addVxNn : seen (regs 0) 0x7001 (withV [(0, 0xFF)]) = some (0, 0, 0x202) ∧
    seen (regs 15) 0x7FFF (withV [(15, 1)]) = some (0, 0, 0x202) := by decide

/-- A6. -/
theorem test_ldVxVy : seen (regs 14) 0x8EF0 (withV [(15, 1)]) = some (1, 1, 0x202) := by decide

/-- A7. -/
theorem test_orVxVy : seen (regs 1) 0x8121 (withV [(1, 0xF0), (2, 0x0F), (15, 1)]) = some (0xFF, 1, 0x202) := by decide

/-- A8. -/
theorem test_andVxVy : seen (regs 1) 0x8122 (withV [(1, 0xF0), (2, 0x3C)]) = some (0x30, 0, 0x202) := by decide

/-- A9. -/
theorem test_xorVxVy : seen (regs 1) 0x8123 (withV [(1, 0xF0), (2, 0x3C)]) = some (0xCC, 0, 0x202) := by decide

/-- A11. -/
theorem test_addVxVy : seen (regs 0xC) 0x8C34 (withV [(0xC, 0xFF), (3, 0x24)]) = some (0x23, 1, 0x202) := by decide

/-- A15, A16: `VF` as the destination and as the source. -/
theorem test_addVxVy_flag : seen (regs 15) 0x8F14 (withV [(15, 1), (1, 2)]) = some (0, 0, 0x202) ∧
    seen (regs 1) 0x81F4 (withV [(1, 0xFE), (15, 3)]) = some (1, 1, 0x202) := by decide

/-- A18, A19. -/
theorem test_sub : seen (regs 1) 0x8125 (withV [(1, 0x10), (2, 0x20)]) = some (0xF0, 0, 0x202) ∧
    seen (regs 1) 0x8125 (withV [(1, 7), (2, 7)]) = some (0, 1, 0x202) := by decide

/-- A22, A23. -/
theorem test_subn : seen (regs 1) 0x8127 (withV [(1, 0x10), (2, 0x20)]) = some (0x10, 1, 0x202) ∧
    seen (regs 1) 0x8127 (withV [(1, 0x20), (2, 0x10)]) = some (0xF0, 0, 0x202) := by decide

/-- A25, A26. -/
theorem test_shr : seen (regs 0xA) 0x8AB6 (legacyV [(0xA, 0x55), (0xB, 9)]) = some (4, 1, 0x202) ∧
    seen (regs 0xA) 0x8AB6 (withV [(0xA, 0x55), (0xB, 9)]) = some (0x2A, 1, 0x202) := by decide

/-- A33, A34. -/
theorem test_shl : seen (regs 1) 0x812E (legacyV [(2, 0x81)]) = some (2, 1, 0x202) ∧
    seen (regs 1) 0x812E (withV [(1, 0x7F)]) = some (0xFE, 0, 0x202) := by decide

/-- A38: a mask of 0 leaves nothing of the draw, whatever it was; one byte is drawn. -/
theorem test_rnd : seen (fun t => (t.draws, t.pc, getV t 1)) 0xC000 (withV [(1, 5)]) = some (1, 0x202, 5) := by decide

theorem test_rnd_mask : ∃ t, exec (.rnd 0 0) (withV [(0, 5)]) = .next t ∧ getV t 0 = 0 := ⟨_, rfl, by simp⟩

/-- M1. -/
theorem test_ldINnn : seen ctl 0xA300 State.reset = some (0x300, 0x202, .ready) := by decide

/-- M2, M3. -/
theorem test_addIVx : seen ctl 0xF11E (setI 0xFFF (withV [(1, 1)])) = some (0x1000, 0x202, .ready) ∧
    seen ctl 0xF01E (setI 0xFFFF (withV [(0, 2)])) = some (1, 0x202, .ready) := by decide

/-- M5, M6. -/
theorem test_ldFVx : seen ctl 0xF029 (withV [(0, 0x0A)]) = some (0x32, 0x202, .ready) ∧
    seen ctl 0xF029 (withV [(0, 0xFF)]) = some (0x4FB, 0x202, .ready) := by decide

/-- M7. -/
theorem test_ldBVx : seen (fun t => ((List.range 4).map fun k => peek t (0x300 + k), ctl t)) 0xF033
    (setI 0x300 (withV [(0, 0xEA)])) = some ([2, 3, 4, 0], (0x300, 0x202, .ready)) := by decide

/-- M9: two of the three cells are in bounds, and none is written. -/
theorem test_ldBVx_fault : seen (fun t => (peek t 0xFFE, ctl t)) 0xF033 (setI 0xFFE (withV [(0, 0xFF)])) =
    some (0, (0xFFE, 0x202, .faulted (.memoryFault 0x1000))) := by decide

/-- M12. -/
theorem test_ldMemVx : seen (fun t => (peek t 0x208, peek t 0x209, t.i)) 0xF155
    (setI 0x208 (withV [(0, 0x6A), (1, 0x77)])) = some (0x6A, 0x77, 0x208) ∧
    seen (fun t => (peek t 0x208, peek t 0x209, t.i)) 0xF155
    (setI 0x208 (legacyV [(0, 0x6A), (1, 0x77)])) = some (0x6A, 0x77, 0x20A) := by decide

/-- M14. -/
theorem test_ldMemVx_fault : seen (fun t => (peek t 0xFF1, ctl t)) 0xFF55 (setI 0xFF1 (legacyV [(0, 1)])) =
    some (0, (0xFF1, 0x202, .faulted (.memoryFault 0x1000))) := by decide

/-- M16, M17. -/
theorem test_ldVxMem : seen (fun t => ((List.finRange 4).map fun k => getV t (Fin.castLE (by omega) k), t.i)) 0xF265
    (poke 0x302 4 (poke 0x301 3 (poke 0x300 2 (setI 0x300 (legacyV [(3, 9)]))))) = some ([2, 3, 4, 9], 0x303) ∧
    seen (fun t => (getV t 0, getV t 1, getV t 4, t.i)) 0xF465 State.reset = some (0xF0, 0x90, 0xF0, 0) := by decide

/-- M18. -/
theorem test_ldVxMem_fault : seen (fun t => (getV t 0, ctl t)) 0xFF65 (setI 0xFF1 (withV [(0, 7)])) =
    some (7, (0xFF1, 0x202, .faulted (.memoryFault 0x1000))) := by decide

/-- A screen with one pixel on. -/
def lit (x y : Nat) (s : State) : State := setFb (fbFlip x y s.fb) s

/-- FB1. -/
theorem test_cls : seen (fun t => (fbGet t.fb 3 4, regs 0 t)) 0x00E0 (lit 3 4 (withV [(15, 5)])) =
    some (false, (0, 5, 0x202)) := by decide

/-- FB11: one pixel on the screen is turned off, one is turned on. -/
theorem test_drw : seen (fun t => (fbGet t.fb 0 0, fbGet t.fb 1 0, fbGet t.fb 2 0, getV t 15)) 0xD121
    (lit 1 0 (poke 0x300 0xC0 (setI 0x300 State.reset))) = some (true, false, false, 1) := by decide

/-- FB4, FB7: what falls off the screen is dropped. -/
theorem test_drw_edge : seen (fun t => (fbGet t.fb 60 31, fbGet t.fb 63 31, fbGet t.fb 0 31, fbGet t.fb 0 0, getV t 15)) 0xD122
    (poke 0x301 0xFF (poke 0x300 0xFF (setI 0x300 (withV [(1, 60), (2, 31)])))) = some (true, true, false, false, 0) := by
  decide

/-- T1. -/
theorem test_ldVxDt : seen (regs 3) 0xF307 (setDt 0x3C State.reset) = some (0x3C, 0, 0x202) := by decide

/-- T2. -/
theorem test_ldDtVx : seen (fun t => (t.dt, t.st)) 0xF315 (withV [(3, 0x3C)]) = some (0x3C, 0) := by decide

/-- T3. -/
theorem test_ldStVx : seen (fun t => (t.dt, t.st)) 0xF018 (withV [(0, 5)]) = some (0, 5) := by decide

/-- T4. -/
theorem test_tick : let t := tick (setDt 2 (setSt 1 State.reset)); (t.dt, t.st) = (1, 0) ∧ (tick t).st = 0 := by decide

/-- K1, K4. -/
theorem test_skp : seen ctl 0xE09E (setKey 5 true (withV [(0, 5)])) = some (0, 0x204, .ready) ∧
    seen ctl 0xE09E (setKey 0 true (withV [(0, 0x10)])) = some (0, 0x202, .ready) := by decide

/-- K2, K4. -/
theorem test_sknp : seen ctl 0xE0A1 (setKey 5 true (withV [(0, 5)])) = some (0, 0x202, .ready) ∧
    seen ctl 0xE0A1 (setKey 0 true (withV [(0, 0x10)])) = some (0, 0x204, .ready) := by decide

/-- K5: a key held before the wait does not end it. -/
theorem test_ldVxK : seen ctl 0xF30A (setKey 11 true State.reset) = some (0, 0x202, .awaitingInput 3) := by decide

/-- K8. -/
theorem test_keyDown : let t := keyDown 11 (setRun (.awaitingInput 3) State.reset);
    (getV t 3, portKey 11 t, t.run) = (0x0B, true, .ready) := by decide

/-- H1, H2. -/
theorem test_reset : let s := setKey 3 true (poke 0x300 5 (setPc 0x208 (legacyV [(0, 5)])));
    (getV (resetCore false s) 0, peek (resetCore false s) 0x300, portKey 3 (resetCore false s), (resetCore false s).mode) =
      (0, 5, true, .extended) ∧ peek (resetCore true s) 0x300 = 0 := by decide

/-- H5, and the bytes of a short image. -/
theorem test_load : let t := load [0x12, 0x34] (legacyV [(0, 5)]);
    (peek t 0x1FF, peek t 0x200, peek t 0x201, peek t 0x202, t.mode, getV t 0) = (0, 0x12, 0x34, 0, .extended, 0) := by decide

/-! ## Witnesses: for each obligation with hypotheses, a state and operands that meet them -/

/-- `PC` at the last address that can be fetched from, with the word `w` there. -/
def atEdge (w : Nat) (s : State) : State := (setPc 0xFFE s).withFetchWord 16 w

theorem witness_StepRunsDecodedInstruction :
    (CanFetch (atEdge 0x6107 State.reset) ∧
      decodeWord (wordAtPc (atEdge 0x6107 State.reset)) = .instr (.ldVxNn 1 7) ∧ Instr.ldVxNn 1 7 ≠ .halt) ∧
    (CanFetch State.reset ∧ decodeWord (wordAtPc State.reset) = .instr .halt) := by decide

theorem witness_UnknownWordOnlyAdvancesPc :
    CanFetch (atEdge 0x0001 State.reset) ∧ decodeWord (wordAtPc (atEdge 0x0001 State.reset)) = .unknown 0x0001 := by decide

theorem witness_FetchOutOfBoundsFaults :
    ((setPc 4095 State.reset).run = .ready ∧ 4095 ≤ (setPc 4095 State.reset).pc.toNat) ∧
    ((setPc 0xFFFF State.reset).run = .ready ∧ 4095 ≤ (setPc 0xFFFF State.reset).pc.toNat) := by decide

theorem witness_FetchedWordIsBigEndian : (setPc 0xFFE State.reset).pc.toNat + 1 < 4096 := by decide

theorem witness_ZeroWordHalts :
    (CanFetch (setPc 0xFFE State.reset) ∧ peek (setPc 0xFFE State.reset) 0xFFE = 0 ∧ peek (setPc 0xFFE State.reset) 0xFFF = 0) ∧
    (CanFetch (atEdge 0x0001 State.reset) ∧
      ¬ (peek (atEdge 0x0001 State.reset) 0xFFE = 0 ∧ peek (atEdge 0x0001 State.reset) 0xFFF = 0)) := by decide

theorem witness_StepDuringKeyWaitIsNoOp :
    let s := setRun (.awaitingInput 15) State.reset
    s.run = .awaitingInput 15 ∧ transact .tick s = .next (tick s) ∧ (∀ k, Transaction.tick ≠ .keyDown k) ∧
      (∀ c, Transaction.tick ≠ .reset c) ∧ (∀ bs, Transaction.tick ≠ .load bs) :=
  ⟨rfl, rfl, by simp, by simp, by simp⟩

theorem witness_StoppedCoreStaysStopped :
    (setRun .halted State.reset).run = .halted ∧
    (setRun (.faulted .stackUnderflow) State.reset).run = .faulted .stackUnderflow ∧
    (let s := setRun (.faulted (.memoryFault 4096)) State.reset
     (∃ c, s.run = .faulted c) ∧ transact (.keyDown 15) s = .next (keyDown 15 s) ∧
      (∀ c, Transaction.keyDown 15 ≠ .reset c) ∧ (∀ bs, Transaction.keyDown 15 ≠ .load bs)) :=
  ⟨rfl, rfl, ⟨_, rfl⟩, rfl, by simp, by simp⟩

theorem witness_RetTakesReturnAddress : (setStack [0x1000, 2] State.reset).stack = (0x1000 : Word) :: [2] := by decide

theorem witness_RetOnEmptyStackFaults : State.reset.stack = [] := by decide

theorem witness_CallThenReturnComesBack :
    let s := State.withFetchWord (poke 0xFFD 0xEE (poke 0xFFC 0x00 (setPc 0xFFE State.reset))) 16 0x2FFC
    CanFetch s ∧ decodeWord (wordAtPc s) = .instr (.call 0xFFC) ∧ (0xFFC : BitVec 12).toNat < 4095 ∧
      decodeWord (wordOfBytes (peek s (0xFFC : BitVec 12).toNat) (peek s ((0xFFC : BitVec 12).toNat + 1))) = .instr .ret := by
  decide

theorem witness_ComparingSkips :
    (getV State.reset 0 = 0 ∧ getV State.reset 0 ≠ 1) ∧ getV State.reset 0 = getV State.reset 15 ∧
    getV (withV [(15, 1)]) 0 ≠ getV (withV [(15, 1)]) 15 := by decide

theorem witness_SkippingStepEndsAtNextOrNextButOne :
    (CanFetch (atEdge 0x3000 State.reset) ∧ decodeWord (wordAtPc (atEdge 0x3000 State.reset)) = .instr (.seVxNn 0 0) ∧
      skipCondition (atEdge 0x3000 State.reset) (.seVxNn 0 0) = some true) ∧
    (CanFetch (atEdge 0x9010 State.reset) ∧ decodeWord (wordAtPc (atEdge 0x9010 State.reset)) = .instr (.sneVxVy 0 1) ∧
      skipCondition (atEdge 0x9010 State.reset) (.sneVxVy 0 1) = some false) := by decide

theorem witness_KeySkips :
    (getV (withV [(1, 15)]) 1).toNat = (15 : Reg).val ∧ (getV (withV [(1, 0)]) 1).toNat = (0 : Reg).val ∧
    16 ≤ (getV (withV [(1, 16)]) 1).toNat ∧ 16 ≤ (getV (withV [(1, 255)]) 1).toNat := by decide

theorem witness_not_flag_register : (14 : Reg) ≠ 15 := by decide

theorem witness_ShiftsRecordTheBitShiftedOut :
    ((legacyV [(2, 0x81)]).mode = .legacy ∧ (0x81 : Byte) = getV (legacyV [(2, 0x81)]) 2) ∧
    ((withV [(1, 0xFF)]).mode = .extended ∧ (0xFF : Byte) = getV (withV [(1, 0xFF)]) 1) := by decide

theorem witness_OnlySixInstructionsWriteFlag :
    (Instr.mnemonic (.sub 15 15) ∈ flagWriters ∧
      exec (.sub 15 15) State.reset = .next (writeResultFlag flagOrder 15 (subNoBorrow 0 0) State.reset) ∧
      (writeResultFlag flagOrder 15 (subNoBorrow 0 0) State.reset).run = State.reset.run ∧
      ∀ c, State.reset.run ≠ .faulted c) ∧
    (Instr.mnemonic (.orVxVy 14 15) ∉ flagWriters ∧ 15 ∉ destinations (.orVxVy 14 15) ∧
      exec (.orVxVy 14 15) State.reset = .next (setV 14 0 State.reset)) :=
  ⟨⟨by decide, rfl, rfl, by simp [State.reset]⟩, by decide, by decide, rfl⟩

theorem witness_CheckedByteAccess : 4095 < 4096 ∧ 4096 ≤ 4096 := by decide

theorem witness_RangeCheckedBeforeAccess :
    (4095 + [(7 : Byte)].length ≤ 4096) ∧ (5000 + ([] : List Byte).length ≤ 4096 ∨ ([] : List Byte) = []) ∧
    (4096 < 4095 + [(7 : Byte), 8].length ∧ [(7 : Byte), 8] ≠ []) ∧ (4096 < 4096 + [(7 : Byte)].length ∧ [(7 : Byte)] ≠ []) := by
  decide

theorem witness_BcdStoreWritesThreeDigits :
    effAddr (setI 0xFFD State.reset) 2 < 4096 ∧ effAddr (setI 0xFFD State.reset) 0 = 0xFFD ∧
    (0xFFC < 0xFFD ∨ 0xFFD + 3 ≤ 0xFFC) ∧ (0x1000 < 0xFFD ∨ 0xFFD + 3 ≤ 0x1000) := by decide

theorem witness_BlockStoreWritesRegisters :
    effAddr (setI 0xFF0 State.reset) (15 : Reg).val < 4096 ∧ (15 : Reg) ≤ 15 ∧ effAddr (setI 0xFF0 State.reset) 0 = 0xFF0 ∧
    (0xFEF < 0xFF0 ∨ 0xFF0 + (15 : Reg).val + 1 ≤ 0xFEF) ∧ effAddr (setI 0xFFF State.reset) (0 : Reg).val < 4096 := by decide

theorem witness_BlockLoadReadsRegisters :
    effAddr (setI 0xFF1 State.reset) (14 : Reg).val < 4096 ∧ (14 : Reg) ≤ 14 ∧ (14 : Reg) < 15 := by decide

theorem witness_MemoryInstructionsFaultOutOfBounds :
    4096 ≤ effAddr (setI 0xFFE State.reset) 2 ∧ 4096 ≤ effAddr (setI 0xFFF State.reset) (1 : Reg).val ∧
    4096 ≤ effAddr (setI 0x1000 State.reset) (0 : Reg).val ∧
    ((1 : BitVec 4) ≠ 0 ∧ 4097 ≤ effAddr (setI 0x1000 State.reset) (1 : BitVec 4).toNat) := by decide

theorem witness_BlockStoreThenLoadRestores :
    let s := setI 0xFF0 (withV [(15, 7)])
    let u := setV 15 9 (pokeBytes 0xFF0 (regBlock 15 s) s)
    s.mode = .extended ∧ effAddr s (15 : Reg).val < 4096 ∧ (∀ t, exec (.ldMemVx 15) s = .next t → SameExcept [.v] t u) := by
  refine ⟨rfl, by decide, ?_⟩
  intro t ht
  have h : exec (.ldMemVx 15) (setI 0xFF0 (withV [(15, 7)])) =
      .next (pokeBytes 0xFF0 (regBlock 15 (setI 0xFF0 (withV [(15, 7)]))) (setI 0xFF0 (withV [(15, 7)]))) := by
    rcases execLdMemVx_cases 15 (setI 0xFF0 (withV [(15, 7)])) with ⟨-, e⟩ | ⟨h, -⟩
    · rw [blockIncrement_extended (by simp; rfl)] at e
      exact e
    · exact absurd h (by decide)
  rw [h] at ht
  cases ht
  intro p hp
  cases p <;> simp [Part.Same] at hp ⊢

/-- The block begins one byte before `PC` and ends at the top of memory; `LD B` stores its tens and units over the word at `PC`. -/
theorem witness_StoreIsSeenByNextFetch :
    let s := setV 1 0x12 (setPc 0xFFE (setI 0xFFD State.reset))
    s.pc.toNat < 4095 ∧ effAddr s (2 : Reg).val < 4096 ∧ effAddr s 2 < 4096 ∧ s.run = .ready ∧
      blockStoredByte 2 s 0xFFE = 0x12 ∧ blockStoredByte 1 s 0xFFF = 0 ∧ digitStoredByte 1 s 0xFFE = 1 ∧
      digitStoredByte 1 s 0xFFF = 8 ∧
      decodeWord (wordOfBytes (blockStoredByte 2 s 0xFFE) (blockStoredByte 2 s 0xFFF)) = .instr (.jp 0x200) := by decide

theorem witness_DrawFlipsSpritePixels :
    (let s := lit 1 0 (poke 0x300 0xC0 (setI 0x300 State.reset))
     effAddr s (1 : BitVec 4).toNat ≤ 4096 ∧
      (1 < 64 ∧ 0 < 32 ∧ portPixel 1 0 s = true ∧
        spritePixel s (getV s 1).toNat (getV s 2).toNat (1 : BitVec 4).toNat 1 0 = true)) ∧
    (effAddr (setI 0xFF1 State.reset) (15 : BitVec 4).toNat ≤ 4096) ∧
    (∀ a c, a < 64 → c < 32 → portPixel a c State.reset = true →
      spritePixel State.reset (getV State.reset 1).toNat (getV State.reset 2).toNat (15 : BitVec 4).toNat a c = false) := by
  refine ⟨by decide, by decide, ?_⟩
  intro a c _ _ h
  exact absurd h (by rw [show portPixel a c State.reset = false from fbGet_clear a c]; simp)

theorem witness_DrawTwiceRestoresScreen :
    let s := poke 0x300 0x80 (setI 0x300 State.reset)
    effAddr s (1 : BitVec 4).toNat ≤ 4096 ∧ (1 : Reg) ≠ 15 ∧ (2 : Reg) ≠ 15 ∧
      (∀ a c, a < 64 → c < 32 → spritePixel s (getV s 1).toNat (getV s 2).toNat (1 : BitVec 4).toNat a c = true →
        portPixel a c s = false) ∧
      (0 < 64 ∧ 0 < 32 ∧ spritePixel s (getV s 1).toNat (getV s 2).toNat (1 : BitVec 4).toNat 0 0 = true) :=
  ⟨by decide, by decide, by decide, fun a c _ _ _ => fbGet_clear a c, by decide⟩

theorem witness_TimersDecayOnlyByTick :
    (transact (.keyDown 15) State.reset = .next (keyDown 15 State.reset) ∧ Transaction.keyDown 15 ≠ .tick ∧
      (∀ c, Transaction.keyDown 15 ≠ .reset c) ∧ (∀ bs, Transaction.keyDown 15 ≠ .load bs) ∧
      ∀ x, cycleCase State.reset = .run (.ldDtVx x) → Transaction.keyDown 15 ≠ .step) ∧
    (exec (.ldVxDt 3) State.reset = .next (setV 3 0 State.reset) ∧ (∀ x, Instr.ldVxDt 3 ≠ .ldDtVx x) ∧
      (∀ x, Instr.ldVxDt 3 ≠ .ldStVx x)) ∧
    exec (.ldStVx 3) State.reset = .next (setSt 0 State.reset) :=
  ⟨⟨rfl, by simp, by simp, by simp, by simp⟩, ⟨rfl, by simp, by simp⟩, rfl⟩

theorem witness_TickCommutesWithStep :
    (∀ i, cycleCase State.reset = .run i → (∀ x, i ≠ .ldVxDt x ∧ i ≠ .ldDtVx x ∧ i ≠ .ldStVx x)) ∧
    step State.reset = .next (setRun .halted State.reset) := by
  have h : cycleCase State.reset = .run .halt := by decide
  refine ⟨fun i hi x => ?_, by simp [step, cycle, h]; rfl⟩
  rw [h] at hi
  cases hi
  simp

theorem witness_KeyDownReleasesWait :
    (setRun (.awaitingInput 15) State.reset).run = .awaitingInput 15 ∧ (∀ x, State.reset.run ≠ .awaitingInput x) ∧
    (3 : Reg) ≠ 15 := by decide

theorem witness_KeyWaitEndsWithTheNextKeyDown :
    CanFetch (atEdge 0xFF0A State.reset) ∧ decodeWord (wordAtPc (atEdge 0xFF0A State.reset)) = .instr (.ldVxK 15) := by decide

theorem witness_ModeAffectsExactlyFourInstructions :
    Instr.mnemonic (.ldBVx 3) ∉ modeDependent ∧ "SHR" ∈ modeDependent ∧
    exec (.ldVxVy 3 4) State.reset = .next (setV 3 0 State.reset) ∧ Instr.mnemonic (.ldVxVy 3 4) ∉ modeDependent ∧
    (transact .tick State.reset = .next (tick State.reset) ∧ (∀ m, Transaction.tick ≠ .setMode m) ∧
      (∀ c, Transaction.tick ≠ .reset c) ∧ (∀ bs, Transaction.tick ≠ .load bs)) :=
  ⟨by decide, by decide, rfl, by decide, rfl, by simp, by simp, by simp⟩

theorem witness_ResetSetsEverythingButKeys : 79 < 80 ∧ 80 ≤ 80 := by decide

theorem witness_ExecutionBeginsAtEntry :
    decodeWord (wordOfBytes (peek (resetCore false (State.reset.withFetchWord 16 0x1ABC)) 0x200)
      (peek (resetCore false (State.reset.withFetchWord 16 0x1ABC)) 0x201)) = .instr (.jp 0xABC) := by decide

theorem witness_LoadResetsThenPlacesImage :
    (3583 < (List.replicate 4000 (0xAB : Byte)).length ∧ 3583 < 3584) ∧
    (0x1FF < 0x200 ∨ 0x200 + min (List.replicate 4000 (0xAB : Byte)).length 3584 ≤ 0x1FF) ∧
    (0x202 < 0x200 ∨ 0x200 + min [(0x12 : Byte), 0x34].length 3584 ≤ 0x202) :=
  ⟨by rw [List.length_replicate]; decide, by decide, by decide⟩

theorem witness_PowerOnState : (∀ k, portKey k State.reset = false) ∧ State.reset.draws = State.reset.draws := by decide

theorem witness_NoWordSelectsTwoRows :
    ∃ r ∈ opTable, r.selects 0x8AB6 = true ∧ r.mnemonic = "SHR" := by decide

theorem witness_EncodeOfDecode : decodeWord 0xDABC = .instr (.drw 0xA 0xB 0xC) := by decide

theorem witness_AccessMatrix :
    exec (.call 0x123) State.reset = .next (setPc 0x123 (setStack [0x200] State.reset)) ∧
    Instr.mnemonic (.call 0x123) ∉ writtenBy .keys ∧ Instr.mnemonic (.call 0x123) ∉ writtenBy .v := by
  refine ⟨rfl, by decide, by decide⟩

theorem witness_RegistersChangedOnlyAsDestination :
    exec (.addVxVy 3 4) State.reset = .next (writeResultFlag flagOrder 3 (addCarry 0 0) State.reset) ∧
    14 ∉ destinations (.addVxVy 3 4) ∧ ((14 : Reg) ≠ 15 ∨ Instr.mnemonic (.addVxVy 3 4) ∉ flagWriters) ∧
    (exec (.ldVxNn 3 7) State.reset = .next (setV 3 7 State.reset) ∧ 15 ∉ destinations (.ldVxNn 3 7) ∧
      Instr.mnemonic (.ldVxNn 3 7) ∉ flagWriters) :=
  ⟨rfl, by decide, by decide, rfl, by decide, by decide⟩

/-- A step seen to end in a given run state has a next state with it. -/
theorem next_of_run {s : State} {r : RunState}
    (h : (match step s with | .next t => some t.run | .fault _ => none | .refused _ => none) = some r) :
    ∃ t, step s = .next t ∧ t.run = r := by
  split at h
  · rename_i t ht
    exact ⟨t, ht, by simpa using h⟩
  · cases h
  · cases h

theorem witness_FaultsArePrecise :
    ((State.reset.withFetchWord 16 0x00EE).run = .ready ∧ (State.reset.withFetchWord 16 0x00EE).pc.toNat < 4095 ∧
      ∃ t, step (State.reset.withFetchWord 16 0x00EE) = .next t ∧ t.run = .faulted .stackUnderflow) ∧
    ((setPc 4095 State.reset).run = .ready ∧ 4095 ≤ (setPc 4095 State.reset).pc.toNat ∧
      ∃ t, step (setPc 4095 State.reset) = .next t ∧ t.run = .faulted (.memoryFault 4096)) :=
  ⟨⟨by decide, by decide, next_of_run (by decide)⟩, by decide, by decide, next_of_run (by decide)⟩

theorem witness_StepKeepsInvariant : State.reset.Inv ∧ step State.reset = .next (setRun .halted State.reset) :=
  ⟨⟨Memory.wf_nil, by decide, by simp [State.reset], rfl⟩, witness_TickCommutesWithStep.2⟩

/-! ## Other values of the parameters (R4, D2, D8, D13, D16) -/

theorem test_stack_limit : stepWith { Parameters.default with stackLimit := some 0 } (State.reset.withFetchWord 16 0x2123) =
    .refused .stackLimitReached := by rfl

/-- K4 of 95_test_vectors.md under the two alternatives of D13: code 0x10 is key 0 where it is masked. -/
theorem test_key_oob :
    execWith { Parameters.default with keyOob := .masked } (.skp 0) (setV 0 0x10 (setKey 0 true State.reset)) =
      .next (setPc 0x202 (setV 0 0x10 (setKey 0 true State.reset))) ∧
    execWith { Parameters.default with keyOob := .fault } (.skp 0) (setV 0 0x10 State.reset) =
      .fault (.keyCodeOutOfRange 0x10) := ⟨rfl, rfl⟩

theorem test_flag_order :
    (match execWith { Parameters.default with flagOrder := .flagThenResult } (.addVxVy 15 1) (setV 15 3 State.reset) with
      | .next t => some (getV t 15) | .fault _ => none | .refused _ => none) = some 3 := by decide

theorem test_glyph_table :
    peek (resetWith { Parameters.default with glyphTable := Vector.replicate 80 0x7E }) 79 = 0x7E ∧
    peek (resetWith { Parameters.default with glyphTable := Vector.replicate 80 0x7E }) 80 = 0 := by decide

end Sys2Proof.Tests
end

section
/-! The byte accesses of R51 and R52: what each answers on either side of the bound, and what a write of one cell leaves. -/

namespace Sys2Proof.Machine

/-! ### One cell written -/

theorem peek_poke_same (s : State) {a : Nat} (h : a < 4096) (b : Byte) : peek (poke a b s) a = b := by
  rw [peek_poke, if_pos ⟨rfl, h⟩]

theorem peek_poke_other (s : State) {a c : Nat} (h : c ≠ a) (b : Byte) : peek (poke a b s) c = peek s c := by
  rw [peek_poke, if_neg (fun e => h e.1)]

/-- The frame of a write of one cell: every piece of state but memory. -/
theorem sameExcept_poke (a : Nat) (b : Byte) (s : State) : SameExcept [.mem] s (poke a b s) := by
  intro p hp
  cases p with
  | mem => exact absurd (List.mem_singleton_self _) hp
  | _ => simp [Part.Same]

/-! ### Accesses out of bounds (R51, R52) -/

theorem memRead_error (s : State) {a : Nat} (h : 4096 ≤ a) : memRead s a = .error (.memoryFault a) :=
  if_neg (Nat.not_lt.2 h)

theorem memWrite_error (s : State) {a : Nat} (h : 4096 ≤ a) (b : Byte) : memWrite a b s = .error (.memoryFault a) :=
  if_neg (Nat.not_lt.2 h)

/-- Settles O25: in bounds the write is `poke`, whose read-back and frame are the lemmas above; out of bounds both checks fail. -/
theorem checkedByteAccess : Obligations.CheckedByteAccess := by
  intro s a b
  refine ⟨fun h => ⟨memRead_ok s h, poke a b s, memWrite_ok s h b, ?_, ?_, sameExcept_poke a b s⟩,
    fun h => ⟨memRead_error s h, memWrite_error s h b⟩⟩
  · rw [memRead_ok _ h, peek_poke_same s h]
  · exact fun c hc => peek_poke_other s hc b

end Sys2Proof.Machine
end

section
/-! The fetched word and the fields of a word (R71, R72). -/

namespace Sys2Proof

/-! ### The bytes of a word assembled from two bytes -/

@[simp] theorem fieldHi_wordOfBytes (hi lo : Byte) : fieldHi (wordOfBytes hi lo) = hi := by
  apply BitVec.eq_of_toNat_eq
  rw [toNat_fieldHi, toNat_wordOfBytes]
  omega

@[simp] theorem fieldLo_wordOfBytes (hi lo : Byte) : fieldLo (wordOfBytes hi lo) = lo := by
  apply BitVec.eq_of_toNat_eq
  rw [toNat_fieldLo, toNat_wordOfBytes]
  omega

namespace Machine

/-- Settles O4: the fetch answers `wordOfBytes` of the two bytes, and both fields invert it. -/
theorem fetchedWordIsBigEndian : Obligations.FetchedWordIsBigEndian := by
  intro s h
  have hfetch : fetchWord s = .ok (wordOfBytes (peek s s.pc.toNat) (peek s (s.pc.toNat + 1))) :=
    fetchWord_ok (Nat.lt_of_succ_lt_succ h)
  exact ⟨_, hfetch, fieldHi_wordOfBytes _ _, fieldLo_wordOfBytes _ _, toNat_wordOfBytes _ _⟩

/-- Settles O49: the general part is one lemma per field; the three worked decodes are closed computations. -/
theorem fieldsOfAWord : Obligations.FieldsOfAWord := by
  refine ⟨fun w => ?_, ?workedDecodes⟩
  · exact ⟨toNat_fieldHi w, toNat_fieldLo w, toNat_fieldOp w, toNat_fieldNNN w, toNat_fieldNN w, toNat_fieldN w,
      val_fieldX w, val_fieldY w⟩
  case workedDecodes => decide

end Machine
end Sys2Proof
end

section
/-! The key wait (R97): what each transaction does while the core waits. -/

namespace Sys2Proof.Machine

/-! ### The transactions that act in every run state (R162, R164, R165) -/

section
variable (s : State)

/-- A byte other than 0 is at least 1, so that its decrement does not wrap. -/
@[simp] theorem toNat_decay (b : Byte) : (decay b).toNat = b.toNat - 1 := by
  unfold decay
  split
  case isTrue h => simp [h]
  case isFalse h => bv_omega

@[simp] theorem tick_dt : (tick s).dt = decay s.dt := rfl
@[simp] theorem tick_st : (tick s).st = decay s.st := rfl
@[simp] theorem tick_run : (tick s).run = s.run := rfl
@[simp] theorem keyUp_run (k : Reg) : (keyUp k s).run = s.run := rfl
@[simp] theorem portKey_keyUp_same (k : Reg) : portKey k (keyUp k s) = false := by simp [keyUp, portKey_setKey]

theorem tick_setRun (r : RunState) : tick (setRun r s) = setRun r (tick s) := rfl
theorem keyUp_setRun (k : Reg) (r : RunState) : keyUp k (setRun r s) = setRun r (keyUp k s) := rfl
theorem setMode_setRun (m : Mode) (r : RunState) : setMode m (setRun r s) = setRun r (setMode m s) := rfl

/-- These transactions neither read the run state nor write it. -/
theorem transact_setRun (r : RunState) {k : Reg} {m : Mode} {tr : Transaction} (h : tr ∈ [.tick, .keyUp k, .setMode m]) :
    ∃ t, transact tr s = .next t ∧ transact tr (setRun r s) = .next (setRun r t) := by
  simp only [List.mem_cons, List.not_mem_nil, or_false] at h
  rcases h with rfl | rfl | rfl
  · exact ⟨tick s, rfl, congrArg _ (tick_setRun s r)⟩
  · exact ⟨keyUp k s, rfl, congrArg _ (keyUp_setRun s k r)⟩
  · exact ⟨setMode m s, rfl, congrArg _ (setMode_setRun s m r)⟩

end

/-! ### A core that a `step` leaves as it is (R97, R98) -/

/-- R97, from the cases of `step`: the run state selects one of them. -/
theorem step_of_awaitingInput {s : State} {x : Reg} (h : s.run = .awaitingInput x) :
    step s = .next s ∧ stepStatus s = some .continue := by
  simpa [h] using step_cases s

/-- Where a `step` is idle, only a key-down, a reset and a load can change the run state. -/
theorem transact_run_of_idle {s t : State} {tr : Transaction} (hidle : step s = .next s) (h : transact tr s = .next t)
    (hkey : ∀ k, tr ≠ .keyDown k) (hreset : ∀ c, tr ≠ .reset c) (hload : ∀ bs, tr ≠ .load bs) : t.run = s.run := by
  cases tr with
  | step => cases hidle.symm.trans h; rfl
  | tick => cases h; exact tick_run s
  | keyUp k => cases h; exact keyUp_run s k
  | setMode m => cases h; exact setMode_run s m
  | keyDown k => exact absurd rfl (hkey k)
  | reset c => exact absurd rfl (hreset c)
  | load bs => exact absurd rfl (hload bs)

/-- Settles O6: the wait makes `step` idle, which bounds what can leave it; the other transactions do not read the run state. -/
theorem stepDuringKeyWaitIsNoOp : Obligations.StepDuringKeyWaitIsNoOp := by
  intro s x hwait
  obtain ⟨hstep, hstatus⟩ := step_of_awaitingInput hwait
  refine ⟨hstep, hstatus, ?onlyThreeLeave, fun k m tr htr => transact_setRun s .ready htr, ?timers,
    portKey_keyUp_same s, setMode_mode s⟩
  case onlyThreeLeave =>
    exact fun tr t h hkey hreset hload => (transact_run_of_idle hstep h hkey hreset hload).trans hwait
  case timers => exact ⟨toNat_decay s.dt, toNat_decay s.st⟩

end Sys2Proof.Machine
end

section
/-! The transactions that write one piece of state: a key's flag (R164), the mode (R165), the program image (R167). -/

namespace Sys2Proof.Machine

/-! ### What each write leaves unchanged -/

theorem sameExcept_setKey (k : Reg) (b : Bool) (s : State) : SameExcept [.keys] s (setKey k b s) := by
  intro p hp
  cases p with
  | keys => exact absurd (List.mem_singleton_self _) hp
  | _ => simp [Part.Same]

theorem sameExcept_setMode (m : Mode) (s : State) : SameExcept [.mode] s (setMode m s) := by
  intro p hp
  cases p with
  | mode => exact absurd (List.mem_singleton_self _) hp
  | _ => simp [Part.Same]

/-- Each byte of the block is written by `poke`, and the frames of the writes compose. -/
theorem sameExcept_pokeBytes (a : Nat) (bs : List Byte) (s : State) : SameExcept [.mem] s (pokeBytes a bs s) := by
  induction bs generalizing a s with
  | nil => exact SameExcept.refl [.mem] s
  | cons b bs ih => exact ((sameExcept_poke a b s).trans (ih (a + 1) (poke a b s))).mono (by simp)

/-! ### A key-up (R164) -/

theorem portKey_keyUp_other {k j : Reg} (h : j ≠ k) (s : State) : portKey j (keyUp k s) = portKey j s := by
  rw [keyUp, portKey_setKey, if_neg h]

/-- Settles O41: the transaction is one write of a flag, whose frame holds the run state and so a key wait. -/
theorem keyUpClearsFlagOnly : Obligations.KeyUpClearsFlagOnly := by
  intro s k
  exact ⟨keyUp k s, rfl, rfl, portKey_keyUp_same s k, fun j hj => portKey_keyUp_other hj s, sameExcept_setKey k false s⟩

/-! ### A change of mode (R165) -/

/-- Settles O43: the transaction is the write of the mode, with its frame. -/
theorem setModeChangesModeOnly : Obligations.SetModeChangesModeOnly := by
  intro s m
  exact ⟨setMode m s, rfl, rfl, setMode_mode s m, sameExcept_setMode m s⟩

/-! ### A load (R167) -/

/-- A byte that the cut keeps is the image's own. -/
theorem getD_take_imageMax {bytes : List Byte} {k : Nat} (h : k < 3584) :
    (bytes.take Config.imageMax).getD k 0 = bytes.getD k 0 := by
  rw [List.getD_eq_getElem?_getD, List.getElem?_take_of_lt h, ← List.getD_eq_getElem?_getD]

/-- Memory after a load: the image, cut at 3584 bytes, in the cells from 0x200 on, and the clearing reset's bytes elsewhere.
The cut image always fits, as 0x200 + 3584 is the size of memory. -/
theorem peek_load (bytes : List Byte) (s : State) (c : Nat) :
    peek (load bytes s) c =
      if 0x200 ≤ c ∧ c < 0x200 + min bytes.length 3584 then bytes.getD (c - 0x200) 0 else peek (resetCore true s) c := by
  have hentry : Config.entry.toNat = 0x200 := rfl
  have hlen : (bytes.take Config.imageMax).length = min bytes.length 3584 := by rw [List.length_take, Nat.min_comm]
  rw [load, peek_pokeBytes _ _ _ _ (by omega), hlen, hentry]
  split
  case isTrue h => exact getD_take_imageMax (by omega)
  case isFalse => rfl

theorem sameExcept_load (bytes : List Byte) (s : State) : SameExcept [.mem] (resetCore true s) (load bytes s) :=
  sameExcept_pokeBytes _ _ _

/-- Settles O47: each address is either in the range of the cut image or out of it, which selects the case of `peek_load`. -/
theorem loadResetsThenPlacesImage : Obligations.LoadResetsThenPlacesImage := by
  intro s bytes
  refine ⟨load bytes s, rfl, rfl, ?image, ?remainder, sameExcept_load bytes s⟩
  case image =>
    intro k hk hcut
    rw [peek_load, if_pos (by omega), Nat.add_sub_cancel_left]
  case remainder =>
    intro a ha
    rw [peek_load, if_neg (by omega)]

end Sys2Proof.Machine
end

section
/-! The decoder against the encoder (R73, R75, R76): each row of the table selects just the words that its instructions encode to, and
no word selects two rows; from these the two round trips and the list of unknown words. -/

namespace Sys2Proof

/-! ### A word is made of its fields (R72, R73) -/

section
variable {w : Word} {op : BitVec 4}

theorem formatA_fields (h : fieldOp w = op) : formatA op (fieldNNN w) = w := by
  subst h
  apply BitVec.eq_of_toNat_eq
  rw [toNat_formatA, toNat_fieldOp, toNat_fieldNNN]
  omega

theorem formatXI_fields {nn : BitVec 8} (h : fieldOp w = op) (hn : fieldNN w = nn) : formatXI op (fieldX w) nn = w := by
  subst h hn
  apply BitVec.eq_of_toNat_eq
  rw [toNat_formatXI, toNat_fieldOp, val_fieldX, toNat_fieldNN]
  omega

theorem formatXYN_fields {n : BitVec 4} (h : fieldOp w = op) (hn : fieldN w = n) :
    formatXYN op (fieldX w) (fieldY w) n = w := by
  subst h hn
  apply BitVec.eq_of_toNat_eq
  rw [toNat_formatXYN, toNat_fieldOp, val_fieldX, val_fieldY, toNat_fieldN]
  omega

end

/-! ### The rows exclude each other (R75, R77) -/

/-- A word cannot have both values at a bit that two rows fix differently. -/
theorem not_selects_of_rowsExclusive {r q : OpRow} (h : rowsExclusive (r.code, r.mask) (q.code, q.mask) = true) {w : Word}
    (hr : r.selects w = true) (hq : q.selects w = true) : False := by
  simp only [OpRow.selects, beq_iff_eq] at hr hq
  have hzero : (r.code ^^^ q.code) &&& r.mask &&& q.mask = 0#16 := by
    rw [← hr, ← hq]
    ext i hi
    simp only [BitVec.getElem_and, BitVec.getElem_xor, BitVec.getElem_zero]
    cases w[i] <;> cases r.mask[i] <;> cases q.mask[i] <;> rfl
  simp [rowsExclusive, hzero] at h

/-- What the check of a whole table says of the pairs of its rows. -/
theorem pairwise_of_tableWellFormed {l : List (Word × Word)} (h : tableWellFormed l = true) :
    l.Pairwise fun r q => rowsExclusive r q = true := by
  induction l with
  | nil => exact .nil
  | cons r l ih =>
    simp only [tableWellFormed, Bool.and_eq_true, List.all_eq_true] at h
    obtain ⟨⟨-, hexcl⟩, htail⟩ := h
    exact .cons hexcl (ih htail)

theorem eq_of_selects {w : Word} {r q : OpRow} (hr : r ∈ opTable) (hq : q ∈ opTable) (hrw : r.selects w = true)
    (hqw : q.selects w = true) : r = q := by
  have hpairs : opTable.Pairwise fun r q => ¬ (r.selects w = true ∧ q.selects w = true) :=
    (List.pairwise_map.1 (pairwise_of_tableWellFormed opTable_wellFormed)).imp fun h ⟨hrw, hqw⟩ =>
      not_selects_of_rowsExclusive h hrw hqw
  by_contra hne
  have : Std.Symm fun r q : OpRow => ¬ (r.selects w = true ∧ q.selects w = true) := ⟨fun _ _ h hsel => h hsel.symm⟩
  exact hpairs.forall hr hq hne ⟨hrw, hqw⟩

theorem not_selects_zero {r : OpRow} (hr : r ∈ opTable) : r.selects 0 = false := by
  have hall : ∀ q ∈ opTable, q.selects 0 = false := by decide
  exact hall r hr

/-- The converse of `decodeWord_cases`: a row that a word selects gives its decoding, as there is no other. -/
theorem decodeWord_of_selects {w : Word} {r : OpRow} (hr : r ∈ opTable) (h : r.selects w = true) :
    decodeWord w = .instr (r.make w) := by
  rcases decodeWord_cases w with ⟨rfl, -⟩ | ⟨-, q, hq, hqw, hd⟩ | ⟨-, hnone, -⟩
  · rw [not_selects_zero hr] at h
    cases h
  · rw [hd, eq_of_selects hr hq h hqw]
  · rw [hnone r hr] at h
    cases h

/-- Settles O50: the check of the table makes its rows exclusive in pairs, and none of them selects the sentinel. -/
theorem noWordSelectsTwoRows : Obligations.NoWordSelectsTwoRows :=
  ⟨fun _ _ _ hr hq hrw hqw => eq_of_selects hr hq hrw hqw, fun _ hr => not_selects_zero hr⟩

/-! ### From a word to its instruction and back (R76) -/

section
variable {mn : String} {c w : Word} {mk : Word → Instr}

theorem fieldOp_of_selects (hc : c &&& 0xF000 = c) (h : OpRow.selects ⟨mn, c, 0xF000, mk⟩ w = true) :
    fieldOp w = fieldOp c := by
  rw [selects_F000 hc] at h
  exact eq_of_beq h

theorem fieldOp_fieldN_of_selects (hc : c &&& 0xF00F = c) (h : OpRow.selects ⟨mn, c, 0xF00F, mk⟩ w = true) :
    fieldOp w = fieldOp c ∧ fieldN w = fieldN c := by
  rw [selects_F00F hc, Bool.and_eq_true] at h
  exact ⟨eq_of_beq h.1, eq_of_beq h.2⟩

theorem fieldOp_fieldNN_of_selects (hc : c &&& 0xF0FF = c) (h : OpRow.selects ⟨mn, c, 0xF0FF, mk⟩ w = true) :
    fieldOp w = fieldOp c ∧ fieldNN w = fieldNN c := by
  rw [selects_F0FF hc, Bool.and_eq_true] at h
  exact ⟨eq_of_beq h.1, eq_of_beq h.2⟩

theorem eq_code_of_selects (h : OpRow.selects ⟨mn, c, 0xFFFF, mk⟩ w = true) : c = w := by
  rw [selects_FFFF] at h
  exact (eq_of_beq h).symm

/-- Format A: the row fixes `OP`. -/
theorem formatA_of_selects (hc : c &&& 0xF000 = c) (h : OpRow.selects ⟨mn, c, 0xF000, mk⟩ w = true) :
    formatA (fieldOp c) (fieldNNN w) = w := formatA_fields (fieldOp_of_selects hc h)

/-- Format XI. -/
theorem formatXI_of_selects (hc : c &&& 0xF000 = c) (h : OpRow.selects ⟨mn, c, 0xF000, mk⟩ w = true) :
    formatXI (fieldOp c) (fieldX w) (fieldNN w) = w := formatXI_fields (fieldOp_of_selects hc h) rfl

/-- Format XYN. -/
theorem formatXYN_of_selects (hc : c &&& 0xF000 = c) (h : OpRow.selects ⟨mn, c, 0xF000, mk⟩ w = true) :
    formatXYN (fieldOp c) (fieldX w) (fieldY w) (fieldN w) = w := formatXYN_fields (fieldOp_of_selects hc h) rfl

/-- Format XY: the row fixes the low nibble too. -/
theorem formatXY_of_selects (hc : c &&& 0xF00F = c) (h : OpRow.selects ⟨mn, c, 0xF00F, mk⟩ w = true) :
    formatXYN (fieldOp c) (fieldX w) (fieldY w) (fieldN c) = w :=
  have ⟨hop, hn⟩ := fieldOp_fieldN_of_selects hc h
  formatXYN_fields hop hn

/-- Format X: the row fixes the low byte too. -/
theorem formatX_of_selects (hc : c &&& 0xF0FF = c) (h : OpRow.selects ⟨mn, c, 0xF0FF, mk⟩ w = true) :
    formatX (fieldOp c) (fieldX w) (fieldNN c) = w :=
  have ⟨hop, hnn⟩ := fieldOp_fieldNN_of_selects hc h
  formatXI_fields hop hnn

end

theorem encode_make_plain (w : Word) : ∀ r ∈ opRowsPlain, r.selects w = true → encode (r.make w) = w := by
  simp only [opRowsPlain, List.forall_mem_cons]
  exact ⟨eq_code_of_selects, eq_code_of_selects, formatA_of_selects rfl, formatA_of_selects rfl, formatXI_of_selects rfl,
    formatXI_of_selects rfl, formatXY_of_selects rfl, formatXI_of_selects rfl, formatXI_of_selects rfl,
    formatXY_of_selects rfl, formatA_of_selects rfl, formatA_of_selects rfl, formatXI_of_selects rfl,
    formatXYN_of_selects rfl, by simp⟩

theorem encode_make_alu (w : Word) : ∀ r ∈ opRowsAlu, r.selects w = true → encode (r.make w) = w := by
  simp only [opRowsAlu, List.forall_mem_cons]
  exact ⟨formatXY_of_selects rfl, formatXY_of_selects rfl, formatXY_of_selects rfl, formatXY_of_selects rfl,
    formatXY_of_selects rfl, formatXY_of_selects rfl, formatXY_of_selects rfl, formatXY_of_selects rfl,
    formatXY_of_selects rfl, by simp⟩

theorem encode_make_x (w : Word) : ∀ r ∈ opRowsX, r.selects w = true → encode (r.make w) = w := by
  simp only [opRowsX, List.forall_mem_cons]
  exact ⟨formatX_of_selects rfl, formatX_of_selects rfl, formatX_of_selects rfl, formatX_of_selects rfl,
    formatX_of_selects rfl, formatX_of_selects rfl, formatX_of_selects rfl, formatX_of_selects rfl,
    formatX_of_selects rfl, formatX_of_selects rfl, formatX_of_selects rfl, by simp⟩

/-- The instruction that a row makes of a word that selects it has that word as its encoding. -/
theorem encode_make {r : OpRow} {w : Word} (hr : r ∈ opTable) (h : r.selects w = true) : encode (r.make w) = w := by
  simp only [opTable, List.mem_append] at hr
  rcases hr with (hr | hr) | hr
  · exact encode_make_plain w r hr h
  · exact encode_make_alu w r hr h
  · exact encode_make_x w r hr h

/-- Settles O52: the word is the sentinel's, or selects the row that its instruction comes from. -/
theorem encodeOfDecode : Obligations.EncodeOfDecode := by
  intro w i h
  rcases decodeWord_cases w with ⟨rfl, hd⟩ | ⟨-, r, hr, hrw, hd⟩ | ⟨-, -, hd⟩
  · cases hd.symm.trans h
    rfl
  · cases hd.symm.trans h
    exact encode_make hr hrw
  · cases hd.symm.trans h

/-! ### From an instruction to its word and back (R73, R76) -/

theorem encodingFitsRow : ∀ i : Instr, Laws.EncodingFitsRow.Statement i
  | .halt => Laws.EncodingFitsRow.halt
  | .cls => Laws.EncodingFitsRow.cls
  | .ret => Laws.EncodingFitsRow.ret
  | .jp nnn => Laws.EncodingFitsRow.jp nnn
  | .call nnn => Laws.EncodingFitsRow.call nnn
  | .seVxNn x nn => Laws.EncodingFitsRow.seVxNn x nn
  | .sneVxNn x nn => Laws.EncodingFitsRow.sneVxNn x nn
  | .seVxVy x y => Laws.EncodingFitsRow.seVxVy x y
  | .ldVxNn x nn => Laws.EncodingFitsRow.ldVxNn x nn
  | .addVxNn x nn => Laws.EncodingFitsRow.addVxNn x nn
  | .ldVxVy x y => Laws.EncodingFitsRow.ldVxVy x y
  | .orVxVy x y => Laws.EncodingFitsRow.orVxVy x y
  | .andVxVy x y => Laws.EncodingFitsRow.andVxVy x y
  | .xorVxVy x y => Laws.EncodingFitsRow.xorVxVy x y
  | .addVxVy x y => Laws.EncodingFitsRow.addVxVy x y
  | .sub x y => Laws.EncodingFitsRow.sub x y
  | .shr x y => Laws.EncodingFitsRow.shr x y
  | .subn x y => Laws.EncodingFitsRow.subn x y
  | .shl x y => Laws.EncodingFitsRow.shl x y
  | .sneVxVy x y => Laws.EncodingFitsRow.sneVxVy x y
  | .ldINnn nnn => Laws.EncodingFitsRow.ldINnn nnn
  | .jpV0Nnn nnn => Laws.EncodingFitsRow.jpV0Nnn nnn
  | .rnd x nn => Laws.EncodingFitsRow.rnd x nn
  | .drw x y n => Laws.EncodingFitsRow.drw x y n
  | .skp x => Laws.EncodingFitsRow.skp x
  | .sknp x => Laws.EncodingFitsRow.sknp x
  | .ldVxDt x => Laws.EncodingFitsRow.ldVxDt x
  | .ldVxK x => Laws.EncodingFitsRow.ldVxK x
  | .ldDtVx x => Laws.EncodingFitsRow.ldDtVx x
  | .ldStVx x => Laws.EncodingFitsRow.ldStVx x
  | .addIVx x => Laws.EncodingFitsRow.addIVx x
  | .ldFVx x => Laws.EncodingFitsRow.ldFVx x
  | .ldBVx x => Laws.EncodingFitsRow.ldBVx x
  | .ldMemVx x => Laws.EncodingFitsRow.ldMemVx x
  | .ldVxMem x => Laws.EncodingFitsRow.ldVxMem x

/-- The row of an instruction's mnemonic reads its operands back from its word: the fields are those that the format of R73
put there. -/
theorem exists_row_make {i : Instr} (h : i ≠ .halt) : ∃ r ∈ opTable, r.mnemonic = i.mnemonic ∧ r.make (encode i) = i := by
  cases i with
  | halt => exact absurd rfl h
  | cls => exact ⟨opTable[0], List.getElem_mem _, rfl, rfl⟩
  | ret => exact ⟨opTable[1], List.getElem_mem _, rfl, rfl⟩
  | jp nnn => exact ⟨opTable[2], List.getElem_mem _, rfl, congrArg _ (fieldNNN_formatA _ nnn)⟩
  | call nnn => exact ⟨opTable[3], List.getElem_mem _, rfl, congrArg _ (fieldNNN_formatA _ nnn)⟩
  | seVxNn x nn => exact ⟨opTable[4], List.getElem_mem _, rfl, congrArg₂ _ (fieldX_formatXI _ x nn) (fieldNN_formatXI _ x nn)⟩
  | sneVxNn x nn => exact ⟨opTable[5], List.getElem_mem _, rfl, congrArg₂ _ (fieldX_formatXI _ x nn) (fieldNN_formatXI _ x nn)⟩
  | seVxVy x y => exact ⟨opTable[6], List.getElem_mem _, rfl, congrArg₂ _ (fieldX_formatXYN _ x y _) (fieldY_formatXYN _ x y _)⟩
  | ldVxNn x nn => exact ⟨opTable[7], List.getElem_mem _, rfl, congrArg₂ _ (fieldX_formatXI _ x nn) (fieldNN_formatXI _ x nn)⟩
  | addVxNn x nn => exact ⟨opTable[8], List.getElem_mem _, rfl, congrArg₂ _ (fieldX_formatXI _ x nn) (fieldNN_formatXI _ x nn)⟩
  | sneVxVy x y => exact ⟨opTable[9], List.getElem_mem _, rfl, congrArg₂ _ (fieldX_formatXYN _ x y _) (fieldY_formatXYN _ x y _)⟩
  | ldINnn nnn => exact ⟨opTable[10], List.getElem_mem _, rfl, congrArg _ (fieldNNN_formatA _ nnn)⟩
  | jpV0Nnn nnn => exact ⟨opTable[11], List.getElem_mem _, rfl, congrArg _ (fieldNNN_formatA _ nnn)⟩
  | rnd x nn => exact ⟨opTable[12], List.getElem_mem _, rfl, congrArg₂ _ (fieldX_formatXI _ x nn) (fieldNN_formatXI _ x nn)⟩
  | drw x y n => exact ⟨opTable[13], List.getElem_mem _, rfl, by simp [encode, opTable, opRowsPlain]⟩
  | ldVxVy x y => exact ⟨opTable[14], List.getElem_mem _, rfl, congrArg₂ _ (fieldX_formatXYN _ x y _) (fieldY_formatXYN _ x y _)⟩
  | orVxVy x y => exact ⟨opTable[15], List.getElem_mem _, rfl, congrArg₂ _ (fieldX_formatXYN _ x y _) (fieldY_formatXYN _ x y _)⟩
  | andVxVy x y => exact ⟨opTable[16], List.getElem_mem _, rfl, congrArg₂ _ (fieldX_formatXYN _ x y _) (fieldY_formatXYN _ x y _)⟩
  | xorVxVy x y => exact ⟨opTable[17], List.getElem_mem _, rfl, congrArg₂ _ (fieldX_formatXYN _ x y _) (fieldY_formatXYN _ x y _)⟩
  | addVxVy x y => exact ⟨opTable[18], List.getElem_mem _, rfl, congrArg₂ _ (fieldX_formatXYN _ x y _) (fieldY_formatXYN _ x y _)⟩
  | sub x y => exact ⟨opTable[19], List.getElem_mem _, rfl, congrArg₂ _ (fieldX_formatXYN _ x y _) (fieldY_formatXYN _ x y _)⟩
  | shr x y => exact ⟨opTable[20], List.getElem_mem _, rfl, congrArg₂ _ (fieldX_formatXYN _ x y _) (fieldY_formatXYN _ x y _)⟩
  | subn x y => exact ⟨opTable[21], List.getElem_mem _, rfl, congrArg₂ _ (fieldX_formatXYN _ x y _) (fieldY_formatXYN _ x y _)⟩
  | shl x y => exact ⟨opTable[22], List.getElem_mem _, rfl, congrArg₂ _ (fieldX_formatXYN _ x y _) (fieldY_formatXYN _ x y _)⟩
  | skp x => exact ⟨opTable[23], List.getElem_mem _, rfl, congrArg _ (fieldX_formatXI _ x _)⟩
  | sknp x => exact ⟨opTable[24], List.getElem_mem _, rfl, congrArg _ (fieldX_formatXI _ x _)⟩
  | ldVxDt x => exact ⟨opTable[25], List.getElem_mem _, rfl, congrArg _ (fieldX_formatXI _ x _)⟩
  | ldVxK x => exact ⟨opTable[26], List.getElem_mem _, rfl, congrArg _ (fieldX_formatXI _ x _)⟩
  | ldDtVx x => exact ⟨opTable[27], List.getElem_mem _, rfl, congrArg _ (fieldX_formatXI _ x _)⟩
  | ldStVx x => exact ⟨opTable[28], List.getElem_mem _, rfl, congrArg _ (fieldX_formatXI _ x _)⟩
  | addIVx x => exact ⟨opTable[29], List.getElem_mem _, rfl, congrArg _ (fieldX_formatXI _ x _)⟩
  | ldFVx x => exact ⟨opTable[30], List.getElem_mem _, rfl, congrArg _ (fieldX_formatXI _ x _)⟩
  | ldBVx x => exact ⟨opTable[31], List.getElem_mem _, rfl, congrArg _ (fieldX_formatXI _ x _)⟩
  | ldMemVx x => exact ⟨opTable[32], List.getElem_mem _, rfl, congrArg _ (fieldX_formatXI _ x _)⟩
  | ldVxMem x => exact ⟨opTable[33], List.getElem_mem _, rfl, congrArg _ (fieldX_formatXI _ x _)⟩

theorem opTable_mnemonics_nodup : (opTable.map OpRow.mnemonic).Nodup := by decide

theorem decodeWord_encode (i : Instr) : decodeWord (encode i) = .instr i := by
  rcases eq_or_ne i .halt with rfl | hi
  · rfl
  rcases encodingFitsRow i with ⟨hhalt, -⟩ | ⟨r, hr, hmn, hsel⟩
  · exact absurd hhalt hi
  · obtain ⟨q, hq, hqmn, hmake⟩ := exists_row_make hi
    obtain rfl : r = q := List.inj_on_of_nodup_map opTable_mnemonics_nodup hr hq (hmn.trans hqmn.symm)
    rw [decodeWord_of_selects hr hsel, hmake]

theorem wordOfBytes_fields (w : Word) : wordOfBytes (fieldHi w) (fieldLo w) = w := by
  apply BitVec.eq_of_toNat_eq
  rw [toNat_wordOfBytes, toNat_fieldHi, toNat_fieldLo]
  omega

/-- Two bytes decode as their word does, and the rest is left over. -/
theorem decodeBytes_bytesOfWord {w : Word} {i : Instr} (h : decodeWord w = .instr i) (rest : List Byte) :
    decodeBytes (bytesOfWord w ++ rest) = .ok (i, rest) := by
  simp [decodeBytes, bytesOfWord, wordOfBytes_fields, h]

/-- Settles O51: the instruction's row selects its word, no other row does, and the row reads every operand back. -/
theorem decodeOfEncode : Obligations.DecodeOfEncode := by
  intro i rest _
  exact ⟨decodeWord_encode i, decodeBytes_bytesOfWord (decodeWord_encode i) rest⟩

/-! ### The words of no row (R78) -/

theorem decodeWord_eq_unknown_iff {w u : Word} :
    decodeWord w = .unknown u ↔ u = w ∧ w ≠ 0 ∧ ∀ r ∈ opTable, r.selects w = false := by
  constructor
  · intro h
    rcases decodeWord_cases w with ⟨-, hd⟩ | ⟨-, r, -, -, hd⟩ | ⟨hw, hnone, hd⟩
    · cases hd.symm.trans h
    · cases hd.symm.trans h
    · cases hd.symm.trans h
      exact ⟨rfl, hw, hnone⟩
  · rintro ⟨rfl, hw, hnone⟩
    rcases decodeWord_cases u with ⟨h0, -⟩ | ⟨-, r, hr, hsel, -⟩ | ⟨-, -, hd⟩
    · exact absurd h0 hw
    · rw [hnone r hr] at hsel
      cases hsel
    · exact hd

/-- The rows of the first list, in their order, in terms of the fields that their masks test. -/
theorem selects_none_plain_iff (w : Word) : (∀ r ∈ opRowsPlain, r.selects w = false) ↔
    w ≠ 0x00E0 ∧ w ≠ 0x00EE ∧ fieldOp w ∉ [0x1, 0x2, 0x3, 0x4] ∧ (fieldOp w = 5 → fieldN w ≠ 0) ∧
      fieldOp w ∉ [0x6, 0x7] ∧ (fieldOp w = 9 → fieldN w ≠ 0) ∧ fieldOp w ∉ [0xA, 0xB, 0xC, 0xD] := by
  simp (disch := decide) only [opRowsPlain, List.forall_mem_cons, selects_FFFF, selects_F000, selects_F00F]
  generalize fieldOp w = op, fieldN w = n
  simp [fieldOp, fieldN, and_assoc]

theorem selects_none_alu_iff (w : Word) : (∀ r ∈ opRowsAlu, r.selects w = false) ↔
    (fieldOp w = 8 → fieldN w ∉ [0x0, 0x1, 0x2, 0x3, 0x4, 0x5, 0x6, 0x7, 0xE]) := by
  simp (disch := decide) only [opRowsAlu, List.forall_mem_cons, selects_F00F]
  generalize fieldOp w = op, fieldN w = n
  simp [fieldOp, fieldN, imp_and]

theorem selects_none_x_iff (w : Word) : (∀ r ∈ opRowsX, r.selects w = false) ↔
    (fieldOp w = 0xE → fieldNN w ∉ [0x9E, 0xA1]) ∧
      (fieldOp w = 0xF → fieldNN w ∉ [0x07, 0x0A, 0x15, 0x18, 0x1E, 0x29, 0x33, 0x55, 0x65]) := by
  simp (disch := decide) only [opRowsX, List.forall_mem_cons, selects_F0FF]
  generalize fieldOp w = op, fieldNN w = nn
  simp [fieldOp, fieldNN, imp_and, and_assoc]

/-- The values of `OP` of which no word is unknown, and the six others. -/
theorem fieldOp_values : ∀ op : BitVec 4,
    op ∈ [0x1, 0x2, 0x3, 0x4, 0x6, 0x7, 0xA, 0xB, 0xC, 0xD] ∨ op ∈ [0x0, 0x5, 0x8, 0x9, 0xE, 0xF] := by decide

/-- The low nibbles of format 8XY- that no row has. -/
theorem alu_nibble_unused : ∀ n : BitVec 4,
    n ∉ [0x0, 0x1, 0x2, 0x3, 0x4, 0x5, 0x6, 0x7, 0xE] ↔ n ∈ [0x8, 0x9, 0xA, 0xB, 0xC, 0xD, 0xF] := by decide

/-- A word whose `OP` is not 0 is neither the sentinel nor one of the two rows of format Z. -/
theorem ne_of_fieldOp_ne_zero {w : Word} (h : fieldOp w ≠ 0) : w ≠ 0x0000#16 ∧ w ≠ 0x00E0#16 ∧ w ≠ 0x00EE#16 := by
  refine ⟨?_, ?_, ?_⟩ <;> rintro rfl <;> exact h (by decide)

/-- Settles O53: the word selects no row; the value of `OP` says which of the rows' conditions are left. -/
theorem unknownWords : Obligations.UnknownWords := by
  intro w u
  rw [decodeWord_eq_unknown_iff, opTable, List.forall_mem_append, List.forall_mem_append, selects_none_plain_iff,
    selects_none_alu_iff, selects_none_x_iff, alu_nibble_unused]
  refine and_congr_right fun _ => ?_
  by_cases h0 : fieldOp w = 0
  · simp [h0]
  · have hfixed := ne_of_fieldOp_ne_zero h0
    rcases fieldOp_values (fieldOp w) with h | h <;> simp only [List.mem_cons, List.not_mem_nil, or_false] at h
    · rcases h with h | h | h | h | h | h | h | h | h | h <;> simp [h]
    · rcases h with h | h | h | h | h | h <;> simp [h, hfixed]

/-- Settles O54: each word is a closed term, which the decoder evaluates. -/
theorem writtenWordsDecode : Obligations.WrittenWordsDecode := by
  unfold Obligations.WrittenWordsDecode
  decide

end Sys2Proof
end

section
/-! What an instruction leaves unchanged (R34): the pieces of state field by field, one lemma for every update of a single piece, and
the access matrix over all instructions. -/

namespace Sys2Proof.Machine

open Sys2Proof.Claims

/-! ### One piece of state -/

/-- `s` with the piece `p` of `t`. -/
def Part.replace (p : Part) (t s : State) : State :=
  match p with
  | .v => { s with v := t.v }
  | .i => { s with i := t.i }
  | .pc => { s with pc := t.pc }
  | .stack => { s with stack := t.stack }
  | .dt => { s with dt := t.dt }
  | .st => { s with st := t.st }
  | .mem => { s with mem := t.mem }
  | .fb => { s with fb := t.fb }
  | .keys => { s with keys := t.keys }
  | .run => { s with run := t.run }
  | .mode => { s with mode := t.mode }
  | .draws => { s with draws := t.draws }

/-- The field of a piece of state is equal in both states: for memory and the vectors more than `Part.Same`, which speaks of the
reads. -/
def Part.Kept (p : Part) (s t : State) : Prop :=
  match p with
  | .v => t.v = s.v
  | .i => t.i = s.i
  | .pc => t.pc = s.pc
  | .stack => t.stack = s.stack
  | .dt => t.dt = s.dt
  | .st => t.st = s.st
  | .mem => t.mem = s.mem
  | .fb => t.fb = s.fb
  | .keys => t.keys = s.keys
  | .run => t.run = s.run
  | .mode => t.mode = s.mode
  | .draws => t.draws = s.draws

theorem Part.Kept.trans {p : Part} {s t u : State} (h : p.Kept s t) (g : p.Kept t u) : p.Kept s u := by
  cases p <;> exact Eq.trans g h

theorem Part.Kept.same {p : Part} {s t : State} (h : p.Kept s t) : p.Same s t := by
  cases p <;> simp_all [Part.Kept, Part.Same, getV, peek, portKey]

theorem Part.kept_replace {p q : Part} (hp : p ≠ q) (t s : State) : p.Kept s (q.replace t s) := by
  cases q <;> cases p <;> simp_all [Part.Kept, Part.replace]

/-- Where `t` is `s` with one piece of its own, every other piece is kept. -/
theorem Part.kept_of_replace {p q : Part} {s t : State} (h : q.replace t s = t) (hp : p ≠ q) : p.Kept s t :=
  h ▸ Part.kept_replace hp t s

theorem sameExcept_of_replace {q : Part} {s t : State} (h : q.replace t s = t) : SameExcept [q] s t :=
  fun _ hp => (Part.kept_of_replace h (by simpa using hp)).same

/-! ### The updates of one piece each -/

section
variable (s : State)

theorem sameExcept_setV (x : Reg) (b : Byte) : SameExcept [.v] s (setV x b s) := sameExcept_of_replace rfl
theorem sameExcept_setI (a : Word) : SameExcept [.i] s (setI a s) := sameExcept_of_replace rfl
theorem sameExcept_setPc (a : Word) : SameExcept [.pc] s (setPc a s) := sameExcept_of_replace rfl
theorem sameExcept_setStack (l : List Word) : SameExcept [.stack] s (setStack l s) := sameExcept_of_replace rfl
theorem sameExcept_setDt (b : Byte) : SameExcept [.dt] s (setDt b s) := sameExcept_of_replace rfl
theorem sameExcept_setSt (b : Byte) : SameExcept [.st] s (setSt b s) := sameExcept_of_replace rfl
theorem sameExcept_setFb (f : Framebuffer) : SameExcept [.fb] s (setFb f s) := sameExcept_of_replace rfl
theorem sameExcept_setRun (r : RunState) : SameExcept [.run] s (setRun r s) := sameExcept_of_replace rfl
theorem sameExcept_drawByte : SameExcept [.draws] s (drawByte s).2 := sameExcept_of_replace rfl

theorem skipIf_replace (b : Bool) : Part.pc.replace (skipIf b s) s = skipIf b s := by rw [skipIf_eq]; rfl

theorem sameExcept_skipIf (b : Bool) : SameExcept [.pc] s (skipIf b s) := sameExcept_of_replace (skipIf_replace s b)

theorem sameExcept_setRegBlock (k : Nat) (bs : List Byte) : SameExcept [.v] s (setRegBlock k bs s) :=
  sameExcept_of_replace (setRegBlock_eq k bs s).symm

theorem sameExcept_blockIncrement (x : Reg) : SameExcept [.i] s (blockIncrement x s) :=
  sameExcept_of_replace (blockIncrement_eq x s).symm

theorem sameExcept_writeResultFlag (o : FlagOrder) (x : Reg) (r : Byte × Bool) :
    SameExcept [.v] s (writeResultFlag o x r s) := sameExcept_of_replace (writeResultFlag_eq o x r s).symm

end

/-! ### The access matrix (R34) -/

/-- Every piece of state that the matrix does not list an instruction as a writer of keeps its field: per instruction, the
updates that make up its outcome, each of a piece at which it is listed. -/
theorem exec_keeps (p : Part) {i : Instr} {s t : State} (h : exec i s = .next t) (hp : i.mnemonic ∉ writtenBy p) :
    p.Kept s t := by
  have hkeep (q : Part) {u u' : State} (hq : i.mnemonic ∈ writtenBy q) (hu : q.replace u' u = u') : p.Kept u u' :=
    Part.kept_of_replace hu fun hpq => hp (hpq ▸ hq)
  cases i with
  | halt | ldVxK x =>
    cases h
    exact hkeep .run (by simp [Instr.mnemonic, writtenBy]) rfl
  | cls =>
    cases h
    exact hkeep .fb (by simp [Instr.mnemonic, writtenBy]) rfl
  | ldDtVx x =>
    cases h
    exact hkeep .dt (by simp [Instr.mnemonic, writtenBy]) rfl
  | ldStVx x =>
    cases h
    exact hkeep .st (by simp [Instr.mnemonic, writtenBy]) rfl
  | jp nnn | jpV0Nnn nnn =>
    cases h
    exact hkeep .pc (by simp [Instr.mnemonic, writtenBy]) rfl
  | seVxNn x nn | sneVxNn x nn | seVxVy x y | sneVxVy x y | skp x | sknp x =>
    cases h
    exact hkeep .pc (by simp [Instr.mnemonic, writtenBy]) (skipIf_replace s _)
  | ldVxNn x nn | addVxNn x nn | ldVxVy x y | orVxVy x y | andVxVy x y | xorVxVy x y | ldVxDt x | addVxVy x y | sub x y
  | shr x y | subn x y | shl x y =>
    cases h
    exact hkeep .v (by simp [Instr.mnemonic, writtenBy]) rfl
  | ldINnn nnn | addIVx x | ldFVx x =>
    cases h
    exact hkeep .i (by simp [Instr.mnemonic, writtenBy]) rfl
  | rnd x nn =>
    cases h
    have hdraws : p.Kept s (drawByte s).2 := hkeep .draws (by simp [Instr.mnemonic, writtenBy]) rfl
    exact hdraws.trans (hkeep .v (by simp [Instr.mnemonic, writtenBy]) rfl)
  | call nnn =>
    cases h
    have hstack : p.Kept s (setStack (s.pc :: s.stack) s) := hkeep .stack (by simp [Instr.mnemonic, writtenBy]) rfl
    exact hstack.trans (hkeep .pc (by simp [Instr.mnemonic, writtenBy]) rfl)
  | ret =>
    rcases execRet_cases s with ⟨a, l, -, e⟩ | ⟨-, e⟩ <;> cases e.symm.trans h
    · have hstack : p.Kept s (setStack l s) := hkeep .stack (by simp [Instr.mnemonic, writtenBy]) rfl
      exact hstack.trans (hkeep .pc (by simp [Instr.mnemonic, writtenBy]) rfl)
    · exact hkeep .run (by simp [Instr.mnemonic, writtenBy]) rfl
  | drw x y n =>
    rcases execDrw_cases x y n s with ⟨-, e⟩ | ⟨-, -, e⟩ <;> cases e.symm.trans h
    · have hfb : p.Kept s (setFb (drawn x y n s).1 s) := hkeep .fb (by simp [Instr.mnemonic, writtenBy]) rfl
      exact hfb.trans (hkeep .v (by simp [Instr.mnemonic, writtenBy]) rfl)
    · exact hkeep .run (by simp [Instr.mnemonic, writtenBy]) rfl
  | ldBVx x =>
    rcases execLdBVx_cases x s with ⟨-, e⟩ | ⟨-, e⟩ <;> cases e.symm.trans h
    · exact hkeep .mem (by simp [Instr.mnemonic, writtenBy]) (pokeBytes_eq _ _ s).symm
    · exact hkeep .run (by simp [Instr.mnemonic, writtenBy]) rfl
  | ldMemVx x =>
    rcases execLdMemVx_cases x s with ⟨-, e⟩ | ⟨-, e⟩ <;> cases e.symm.trans h
    · have hmem : p.Kept s (pokeBytes s.i.toNat (regBlock x s) s) :=
        hkeep .mem (by simp [Instr.mnemonic, writtenBy]) (pokeBytes_eq _ _ s).symm
      exact hmem.trans (hkeep .i (by simp [Instr.mnemonic, writtenBy]) (blockIncrement_eq x _).symm)
    · exact hkeep .run (by simp [Instr.mnemonic, writtenBy]) rfl
  | ldVxMem x =>
    rcases execLdVxMem_cases x s with ⟨-, e⟩ | ⟨-, e⟩ <;> cases e.symm.trans h
    · have hv : p.Kept s (setRegBlock 0 (loadedBytes x s) s) :=
        hkeep .v (by simp [Instr.mnemonic, writtenBy]) (setRegBlock_eq _ _ s).symm
      exact hv.trans (hkeep .i (by simp [Instr.mnemonic, writtenBy]) (blockIncrement_eq x _).symm)
    · exact hkeep .run (by simp [Instr.mnemonic, writtenBy]) rfl

/-- Settles O55: a kept field is the same piece of state. -/
theorem accessMatrix : Obligations.AccessMatrix := by
  intro i s t p h hp
  exact (exec_keeps p h hp).same

/-! ### What follows for single pieces -/

theorem not_writes_dt {i : Instr} (h : ∀ x, i ≠ .ldDtVx x) : i.mnemonic ∉ writtenBy .dt := by
  cases i <;> simp_all [writtenBy, Instr.mnemonic]

theorem not_writes_st {i : Instr} (h : ∀ x, i ≠ .ldStVx x) : i.mnemonic ∉ writtenBy .st := by
  cases i <;> simp_all [writtenBy, Instr.mnemonic]

section
variable {i : Instr} {s t : State} (h : exec i s = .next t)
include h

theorem exec_mode : t.mode = s.mode := exec_keeps .mode h (by simp [writtenBy])

theorem exec_dt (hi : ∀ x, i ≠ .ldDtVx x) : t.dt = s.dt := exec_keeps .dt h (not_writes_dt hi)

theorem exec_st (hi : ∀ x, i ≠ .ldStVx x) : t.st = s.st := exec_keeps .st h (not_writes_st hi)

end

/-! ### The general registers (R20, R21) -/

/-- The writing of a result and its flag touches `V[x]` and `VF` only. -/
theorem getV_writeResultFlag_other {x r : Reg} (hx : r ≠ x) (hf : r ≠ 15) (a : Byte × Bool) (s : State) :
    getV (writeResultFlag .resultThenFlag x a s) r = getV s r := by
  rw [getV_writeResultFlag, if_neg hf, if_neg hx]

theorem getV_writeResultFlag_vf (x : Reg) (a : Byte × Bool) (s : State) :
    getV (writeResultFlag .resultThenFlag x a s) 15 = flagByte a.2 := by
  rw [getV_writeResultFlag, if_pos rfl]

theorem getV_writeResultFlag_dest {x : Reg} (hx : x ≠ 15) (a : Byte × Bool) (s : State) :
    getV (writeResultFlag .resultThenFlag x a s) x = a.1 := by
  rw [getV_writeResultFlag, if_neg hx, if_pos rfl]

theorem length_loadedBytes (x : Reg) (s : State) : (loadedBytes x s).length = x.val + 1 := by simp [loadedBytes]

/-- A block load leaves the registers above `Vx`. -/
theorem getV_blockLoad_other {x r : Reg} (h : ¬ r ≤ x) (s : State) :
    getV (setRegBlock 0 (loadedBytes x s) s) r = getV s r := by
  rw [getV_setRegBlock, length_loadedBytes, if_neg]
  rw [Fin.le_def] at h
  omega

/-- An instruction that the matrix lists at `V` writes its destination and, where it is a flag writer, `VF`. -/
theorem exec_getV {i : Instr} {s t : State} {r : Reg} (h : exec i s = .next t) (hd : r ∉ destinations i)
    (hf : r ≠ 15 ∨ i.mnemonic ∉ flagWriters) : getV t r = getV s r := by
  by_cases hv : i.mnemonic ∈ writtenBy .v
  · cases i with
    | ldVxNn x nn | addVxNn x nn | ldVxVy x y | orVxVy x y | andVxVy x y | xorVxVy x y | rnd x nn | ldVxDt x =>
      cases h
      exact getV_setV_other _ (by simpa [destinations] using hd) _
    | addVxVy x y | sub x y | shr x y | subn x y | shl x y =>
      cases h
      exact getV_writeResultFlag_other (by simpa [destinations] using hd) (by simpa [flagWriters, Instr.mnemonic] using hf) _ s
    | drw x y n =>
      have hr : r ≠ 15 := by simpa [flagWriters, Instr.mnemonic] using hf
      rcases execDrw_cases x y n s with ⟨-, e⟩ | ⟨-, -, e⟩ <;> cases e.symm.trans h
      · exact getV_setV_other _ hr _
      · rfl
    | ldVxMem x =>
      have hr : ¬ r ≤ x := by simpa [destinations] using hd
      rcases execLdVxMem_cases x s with ⟨-, e⟩ | ⟨-, e⟩ <;> cases e.symm.trans h
      · rw [getV_blockIncrement, getV_blockLoad_other hr]
      · rfl
    | _ => exact absurd hv (by simp [writtenBy, Instr.mnemonic])
  · exact (exec_keeps .v h hv).same r

/-- Settles O56: outside the matrix's writers of `V` the whole file of registers is kept. -/
theorem registersChangedOnlyAsDestination : Obligations.RegistersChangedOnlyAsDestination := by
  intro i s t r h hd hf
  exact exec_getV h hd hf

/-- A flag writer leaves a flag in `VF`, unless it is a `DRW` that faults. -/
theorem exec_flagWriter {i : Instr} {s t : State} (hi : i.mnemonic ∈ flagWriters) (h : exec i s = .next t) :
    (∃ b, getV t 15 = flagByte b) ∨ ∃ c, t.run = .faulted c := by
  cases i with
  | addVxVy x y | sub x y | shr x y | subn x y | shl x y =>
    cases h
    exact .inl ⟨_, getV_writeResultFlag_vf x _ s⟩
  | drw x y n =>
    rcases execDrw_cases x y n s with ⟨-, e⟩ | ⟨-, -, e⟩ <;> cases e.symm.trans h
    · exact .inl ⟨_, getV_setV_same _ 15 _⟩
    · exact .inr ⟨_, rfl⟩
  | _ => exact absurd hi (by simp [flagWriters, Instr.mnemonic])

/-- Settles O22: a flag is 0 or 1, and `VF` is a register like any other for the instructions that write no flag. -/
theorem onlySixInstructionsWriteFlag : Obligations.OnlySixInstructionsWriteFlag := by
  refine ⟨fun i s t hi h hrun hnofault => ?flagWriters, fun i s t hi hd h => exec_getV h hd (.inr hi)⟩
  case flagWriters =>
    rcases exec_flagWriter hi h with ⟨b, hb⟩ | ⟨c, hc⟩
    · rw [hb]
      exact flagByte_zero_or_one b
    · exact absurd (hrun.symm.trans hc) (hnofault c)

/-! ### The run state (R29, R185) -/

/-- The address that a memory fault reports is out of bounds, and a 16-bit register holds it or it is 4096. -/
theorem faultAddrOk_max (a : Word) : (RunState.faulted (.memoryFault (max a.toNat 4096))).faultAddrOk = true := by
  simp only [RunState.faultAddrOk, decide_eq_true_eq]
  omega

/-- Everything an instruction can do to the run state: nothing, the halt, the key wait, or the entry of a fault, of which
nothing else is written (R96, R185). -/
theorem exec_run_cases {i : Instr} {s t : State} (h : exec i s = .next t) :
    t.run = s.run ∨ (i = .halt ∧ t = setRun .halted s) ∨ (∃ x, i = .ldVxK x ∧ t = setRun (.awaitingInput x) s) ∨
    ∃ c, i ≠ .halt ∧ t = raiseFault c s ∧ (RunState.faulted c).faultAddrOk = true := by
  by_cases hr : i.mnemonic ∈ writtenBy .run
  · cases i with
    | halt =>
      cases h
      exact .inr (.inl ⟨rfl, rfl⟩)
    | ldVxK x =>
      cases h
      exact .inr (.inr (.inl ⟨x, rfl, rfl⟩))
    | ret =>
      rcases execRet_cases s with ⟨a, l, -, e⟩ | ⟨-, e⟩ <;> cases e.symm.trans h
      · exact .inl rfl
      · exact .inr (.inr (.inr ⟨_, by simp, rfl, rfl⟩))
    | drw x y n =>
      rcases execDrw_cases x y n s with ⟨-, e⟩ | ⟨-, -, e⟩ <;> cases e.symm.trans h
      · exact .inl rfl
      · exact .inr (.inr (.inr ⟨_, by simp, rfl, faultAddrOk_max s.i⟩))
    | ldBVx x =>
      rcases execLdBVx_cases x s with ⟨-, e⟩ | ⟨-, e⟩ <;> cases e.symm.trans h
      · exact .inl (pokeBytes_run s _ _)
      · exact .inr (.inr (.inr ⟨_, by simp, rfl, faultAddrOk_max s.i⟩))
    | ldMemVx x =>
      rcases execLdMemVx_cases x s with ⟨-, e⟩ | ⟨-, e⟩ <;> cases e.symm.trans h
      · exact .inl (by simp)
      · exact .inr (.inr (.inr ⟨_, by simp, rfl, faultAddrOk_max s.i⟩))
    | ldVxMem x =>
      rcases execLdVxMem_cases x s with ⟨-, e⟩ | ⟨-, e⟩ <;> cases e.symm.trans h
      · exact .inl (by simp)
      · exact .inr (.inr (.inr ⟨_, by simp, rfl, faultAddrOk_max s.i⟩))
    | _ => exact absurd hr (by simp [writtenBy, Instr.mnemonic])
  · exact .inl (exec_keeps .run h hr)

end Sys2Proof.Machine
end

section
/-! The cycle (R90 to R99): a step in each of its cases, and what the cases have in common. -/

namespace Sys2Proof.Machine

open Sys2Proof.Claims

/-! ### A ready core whose `PC` can be fetched from -/

section
variable {s : State}

theorem fetchWord_of_canFetch (h : CanFetch s) : fetchWord s = .ok (wordAtPc s) := fetchWord_ok h.2

theorem cycleCase_of_decode {i : Instr} (h : CanFetch s) (hd : decodeWord (wordAtPc s) = .instr i) :
    cycleCase s = .run i := cycleCase_run h.1 (fetchWord_of_canFetch h) hd

/-- R94: the instruction at `PC` runs. -/
theorem step_of_decode {i : Instr} (h : CanFetch s) (hd : decodeWord (wordAtPc s) = .instr i) :
    step s = exec i (beforeExec i s) := step_run (cycleCase_of_decode h hd)

/-- R93: in the state with `PC` advanced. -/
theorem step_of_decode_other {i : Instr} (h : CanFetch s) (hd : decodeWord (wordAtPc s) = .instr i) (hi : i ≠ .halt) :
    step s = exec i (setPc (s.pc + 2) s) := by
  rw [step_of_decode h hd, beforeExec_other hi]

theorem stepStatus_of_next {i : Instr} {t : State} (hc : cycleCase s = .run i) (h : step s = .next t) :
    stepStatus s = some (statusAfter t.run) := by
  rw [step_run hc] at h
  simp only [stepStatus, hc, CycleCase.status, h]

/-- Settles O1: the case of R94, with the two forms of `beforeExec`. -/
theorem stepRunsDecodedInstruction : Obligations.StepRunsDecodedInstruction := by
  intro s i h hd
  refine ⟨?_, fun hi => ⟨step_of_decode_other h hd hi, toNat_advance h.2⟩⟩
  rintro rfl
  exact step_of_decode h hd

/-! ### An unknown word, and a fetch out of bounds -/

theorem step_of_unknown {w : Word} (h : CanFetch s) (hd : decodeWord (wordAtPc s) = .unknown w) :
    step s = .next (setPc (s.pc + 2) s) ∧ stepStatus s = some (.unknownOpcode w) := by
  obtain ⟨hrun, hpc⟩ := h
  simpa [hrun, hpc, Nat.not_le.2 hpc, fetchWord_of_canFetch ⟨hrun, hpc⟩, hd] using step_cases s

/-- Settles O2: the step is the advance alone, and only the word itself is unknown as that word. -/
theorem unknownWordOnlyAdvancesPc : Obligations.UnknownWordOnlyAdvancesPc := by
  intro s w h hd
  obtain ⟨hstep, hstatus⟩ := step_of_unknown h hd
  exact ⟨setPc (s.pc + 2) s, hstep, toNat_advance h.2, h.1, sameExcept_setPc s _, (decodeWord_eq_unknown_iff.1 hd).1, hstatus⟩

/-- Settles O3: the case of R91. -/
theorem fetchOutOfBoundsFaults : Obligations.FetchOutOfBoundsFaults := by
  intro s hrun hpc
  have hcase : step s = .next (raiseFault (.memoryFault (max s.pc.toNat 4096)) s) ∧
      stepStatus s = some (.fault (.memoryFault (max s.pc.toNat 4096))) := by
    simpa [hrun, hpc, Nat.not_lt.2 hpc] using step_cases s
  exact ⟨_, hcase.1, rfl, sameExcept_setRun s _, hcase.2⟩

/-! ### The sentinel (R92) -/

theorem decodeWord_eq_halt_iff {w : Word} : decodeWord w = .instr .halt ↔ w = 0 := by
  constructor
  · exact fun h => (encodeOfDecode w .halt h).symm
  · rintro rfl
    rfl

theorem wordOfBytes_eq_zero_iff {hi lo : Byte} : wordOfBytes hi lo = 0 ↔ hi = 0 ∧ lo = 0 := by
  constructor
  · intro h
    exact ⟨by rw [← fieldHi_wordOfBytes hi lo, h]; rfl, by rw [← fieldLo_wordOfBytes hi lo, h]; rfl⟩
  · rintro ⟨rfl, rfl⟩
    rfl

/-- No instruction but the sentinel halts a ready core. -/
theorem exec_not_halted {i : Instr} {u t : State} (hi : i ≠ .halt) (hu : u.run = .ready) (h : exec i u = .next t) :
    t.run ≠ .halted := by
  rcases exec_run_cases h with e | ⟨e, -⟩ | ⟨x, -, rfl⟩ | ⟨c, -, rfl, -⟩
  · simp [e, hu]
  · exact absurd e hi
  · simp
  · simp

/-- Settles O5: the word at `PC` is the sentinel just when both its bytes are zero; any other word leaves the core in another run
state, be it unknown or an instruction. -/
theorem zeroWordHalts : Obligations.ZeroWordHalts := by
  refine ⟨fun s => ⟨setRun .halted s, rfl, rfl, sameExcept_setRun s _⟩, fun s h hhi hlo => ?zero, fun s h hbytes => ?other, ?_⟩
  case zero =>
    have hd : decodeWord (wordAtPc s) = .instr .halt := decodeWord_eq_halt_iff.2 (wordOfBytes_eq_zero_iff.2 ⟨hhi, hlo⟩)
    have hstep : step s = .next (setRun .halted s) := step_of_decode h hd
    exact ⟨_, hstep, rfl, rfl, sameExcept_setRun s _, stepStatus_of_next (cycleCase_of_decode h hd) hstep⟩
  case other =>
    cases hd : decodeWord (wordAtPc s) with
    | unknown w => exact ⟨_, (step_of_unknown h hd).1, by simp [h.1]⟩
    | instr i =>
      have hi : i ≠ .halt := by
        rintro rfl
        exact hbytes (wordOfBytes_eq_zero_iff.1 (decodeWord_eq_halt_iff.1 hd))
      obtain ⟨t, ht⟩ := exec_next i (setPc (s.pc + 2) s)
      have hready : (setPc (s.pc + 2) s).run = .ready := h.1
      exact ⟨t, (step_of_decode_other h hd hi).trans ht, exec_not_halted hi hready ht⟩
  · decide

/-! ### A stopped core (R98) -/

theorem step_of_halted (h : s.run = .halted) : step s = .next s ∧ stepStatus s = some .halt := by
  simpa [h] using step_cases s

theorem step_of_faulted {c : FaultCause} (h : s.run = .faulted c) : step s = .next s ∧ stepStatus s = some (.fault c) := by
  simpa [h] using step_cases s

theorem keyDown_of_not_waiting (h : ∀ x, s.run ≠ .awaitingInput x) (k : Reg) : keyDown k s = setKey k true s := by
  unfold keyDown
  split
  case h_1 x hx => exact absurd hx (h x)
  case h_2 => rfl

end

/-- Where a `step` is idle and no key is waited for, only a reset and a load can change the run state. -/
theorem transact_run_of_stopped {s t : State} {tr : Transaction} (hidle : step s = .next s)
    (hwait : ∀ x, s.run ≠ .awaitingInput x) (h : transact tr s = .next t) (hreset : ∀ c, tr ≠ .reset c)
    (hload : ∀ bs, tr ≠ .load bs) : t.run = s.run := by
  by_cases hkey : ∃ k, tr = .keyDown k
  · obtain ⟨k, rfl⟩ := hkey
    cases h
    rw [keyDown_of_not_waiting hwait, setKey_run]
  · exact transact_run_of_idle hidle h (fun k e => hkey ⟨k, e⟩) hreset hload

/-- Settles O7: in both states a `step` is idle and no key is waited for. -/
theorem stoppedCoreStaysStopped : Obligations.StoppedCoreStaysStopped := by
  refine ⟨fun s h => step_of_halted h, fun s c h => step_of_faulted h, fun s t tr hstop h hreset hload => ?_,
    fun s c => resetCore_run s c⟩
  rcases hstop with hs | ⟨c, hs⟩
  · exact transact_run_of_stopped (step_of_halted hs).1 (by simp [hs]) h hreset hload
  · exact transact_run_of_stopped (step_of_faulted hs).1 (by simp [hs]) h hreset hload

/-! ### The status of every step (R99, R181) -/

/-- Settles O8: the cases of a step with their statuses; where an instruction ran, the status is read off its run state. -/
theorem everyStepReturnsOneStatus : Obligations.EveryStepReturnsOneStatus := by
  intro s
  rcases step_cases s with ⟨c, hr, h, hst⟩ | ⟨hr, h, hst⟩ | ⟨x, hr, h, hst⟩ | ⟨hr, -, h, hst⟩ |
    ⟨hr, -, w, hf, ⟨u, hd, h, hst⟩ | ⟨i, t, -, -, h, hst⟩⟩
  · refine ⟨_, _, h, hst, ?_⟩
    cases c <;> exact ⟨rfl, hr⟩
  · exact ⟨_, _, h, hst, rfl, hr⟩
  · exact ⟨_, _, h, hst, rfl, .inr ⟨x, hr⟩⟩
  · exact ⟨_, _, h, hst, rfl, rfl⟩
  · obtain ⟨rfl, -⟩ := decodeWord_eq_unknown_iff.1 hd
    exact ⟨_, _, h, hst, rfl, hr, hf, hd⟩
  · refine ⟨_, _, h, hst, ?_⟩
    match hrun : t.run with
    | .ready => exact ⟨rfl, .inl rfl⟩
    | .awaitingInput x => exact ⟨rfl, .inr ⟨x, rfl⟩⟩
    | .halted | .faulted (.memoryFault a) | .faulted .stackUnderflow => exact ⟨rfl, rfl⟩

end Sys2Proof.Machine
end

section
/-! Control transfer (R100 to R108): jumps, the call and the return, the comparing skips and the key skips. -/

namespace Sys2Proof.Machine

open Sys2Proof.Claims

/-! ### Immediates as numbers (R74) -/

@[simp] theorem toNat_addrImm (nnn : BitVec 12) : (addrImm nnn).toNat = nnn.toNat := by
  rw [addrImm, BitVec.toNat_setWidth]
  omega

@[simp] theorem toNat_zext16 (b : Byte) : (zext16 b).toNat = b.toNat := by
  rw [zext16, BitVec.toNat_setWidth]
  omega

/-- R107: the greatest sum is 255 + 4095, so that it does not wrap. -/
theorem toNat_jumpTarget (b : Byte) (nnn : BitVec 12) : (zext16 b + addrImm nnn).toNat = b.toNat + nnn.toNat := by
  rw [BitVec.toNat_add, toNat_zext16, toNat_addrImm]
  omega

/-! ### The call and the return (R100, R102) -/

/-- The frame of both: the stack and `PC` are written. -/
theorem sameExcept_setPc_setStack (a : Word) (l : List Word) (s : State) :
    SameExcept [.pc, .stack] s (setPc a (setStack l s)) :=
  ((sameExcept_setStack s l).trans (sameExcept_setPc _ a)).mono (by simp)

theorem exec_ret_cons {s : State} {a : Word} {l : List Word} (h : s.stack = a :: l) :
    exec .ret s = .next (setPc a (setStack l s)) := by
  show execRet s = _
  rw [execRet, popStack_cons h]
  rfl

theorem exec_ret_nil {s : State} (h : s.stack = []) : exec .ret s = .next (raiseFault .stackUnderflow s) := by
  show execRet s = _
  rw [execRet, popStack_nil h]
  rfl

/-- Settles O9: the pop, then the jump. -/
theorem retTakesReturnAddress : Obligations.RetTakesReturnAddress := by
  intro s a rest h
  exact ⟨_, exec_ret_cons h, rfl, rfl, sameExcept_setPc_setStack a rest s⟩

/-- Settles O10: the entry of the fault writes the run state only. -/
theorem retOnEmptyStackFaults : Obligations.RetOnEmptyStackFaults := by
  intro s h
  exact ⟨_, exec_ret_nil h, rfl, h, sameExcept_setRun s _⟩

/-- Settles O11: the targets as numbers. -/
theorem jumpsSetPc : Obligations.JumpsSetPc := by
  intro s nnn
  exact ⟨⟨_, rfl, toNat_addrImm nnn, sameExcept_setPc s _⟩, ⟨_, rfl, toNat_jumpTarget _ nnn, sameExcept_setPc s _⟩⟩

/-- Settles O12: at the default there is no limit on the stack. -/
theorem callPushesAdvancedPc : Obligations.CallPushesAdvancedPc := by
  intro s nnn
  exact ⟨_, execCall_eq nnn s, rfl, toNat_addrImm nnn, sameExcept_setPc_setStack _ _ s⟩

/-- Settles O13: the state after the call fetches the `RET`, as the call writes no memory, and the return takes off what the call
pushed. -/
theorem callThenReturnComesBack : Obligations.CallThenReturnComesBack := by
  intro s nnn h hcall htarget hret
  obtain ⟨t, ht⟩ : ∃ t, t = setPc (addrImm nnn) (setStack ((s.pc + 2) :: s.stack) s) := ⟨_, rfl⟩
  have hstep : step s = .next t := ht ▸ step_of_decode_other h hcall (by simp)
  have hpc : t.pc.toNat = nnn.toNat := by rw [ht, setPc_pc, toNat_addrImm]
  have hfetch : CanFetch t := ⟨by rw [ht]; exact h.1, by rw [hpc]; exact htarget⟩
  have hd : decodeWord (wordAtPc t) = .instr .ret := by
    rw [wordAtPc, hpc, ht]
    exact hret
  have hstack : t.stack = (s.pc + 2) :: s.stack := by rw [ht]; rfl
  have hback : step t = .next (setPc (s.pc + 2) (setStack s.stack (setPc (t.pc + 2) t))) :=
    (step_of_decode_other hfetch hd (by simp)).trans (exec_ret_cons hstack)
  refine ⟨t, _, hstep, hpc, hstack, hback, toNat_advance h.2, ?_⟩
  rw [ht]
  exact sameExcept_setPc s (s.pc + 2)

/-! ### The comparing skips (R103 to R106, R108) -/

/-- Settles O14: each is `skipIf` of its condition. -/
theorem comparingSkips : Obligations.ComparingSkips := by
  intro s x y nn
  refine ⟨⟨_, rfl, ?_, ?_, sameExcept_skipIf s _⟩, ⟨_, rfl, ?_, ?_, sameExcept_skipIf s _⟩,
    ⟨_, rfl, ?_, ?_, sameExcept_skipIf s _⟩, ⟨_, rfl, ?_, ?_, sameExcept_skipIf s _⟩⟩ <;>
    intro h <;> simp [h]

/-- An instruction that has a skip condition is `skipIf` of it, and not the sentinel. -/
theorem exec_of_skipCondition {s : State} {i : Instr} {b : Bool} (h : skipCondition s i = some b) (u : State)
    (hu : ∀ x, getV u x = getV s x) : i ≠ .halt ∧ exec i u = .next (skipIf b u) := by
  cases i with
  | seVxNn x nn | sneVxNn x nn | seVxVy x y | sneVxVy x y =>
    cases h
    exact ⟨by simp, by simp only [← hu]; rfl⟩
  | _ => cases h

/-- Settles O15: the condition is read after the advance, which no register sees, and neither of the two sums wraps. -/
theorem skippingStepEndsAtNextOrNextButOne : Obligations.SkippingStepEndsAtNextOrNextButOne := by
  intro s i b h hd hskip
  obtain ⟨hi, hexec⟩ := exec_of_skipCondition hskip (setPc (s.pc + 2) s) fun x => getV_setPc s _ x
  refine ⟨_, (step_of_decode_other h hd hi).trans hexec, ?_, ?_⟩
  · have hpc := h.2
    cases b <;> simp [BitVec.toNat_add] <;> omega
  · exact ((sameExcept_setPc s _).trans (sameExcept_skipIf _ b)).mono (by simp)

/-! ### The key skips (R153, R154, R156) -/

/-- Settles O16: a code below 16 names a key, whose flag is the condition; from 16 on none is held. -/
theorem keySkips : Obligations.KeySkips := by
  intro s x
  refine ⟨⟨_, execSkp_eq x s, sameExcept_skipIf s _, fun k hk => ?_, fun hx => ?_⟩,
    ⟨_, execSknp_eq x s, sameExcept_skipIf s _, fun k hk => ?_, fun hx => ?_⟩⟩
  · rw [skipIf_pc, heldKey_key hk]
  · rw [skipIf_pc, heldKey_noKey hx]
    rfl
  · rw [skipIf_pc, heldKey_key hk]
    cases portKey k s <;> rfl
  · rw [skipIf_pc, heldKey_noKey hx]
    rfl

end Sys2Proof.Machine
end

section
/-! The invariant of every reachable state (R35), piece by piece over the instructions, then over a step and over the transactions;
and the precision of faults (R185). -/

namespace Sys2Proof.Machine

open Sys2Proof.Claims

/-! ### What an instruction does to the pieces that the invariant speaks of -/

section
variable {i : Instr} {s t : State} (h : exec i s = .next t)
include h

/-- `PC` stays, skips, is a jump's target, of which the greatest is 255 + 4095, or is taken from the stack. -/
theorem exec_pc_cases : t.pc = s.pc ∨ t.pc = s.pc + 2 ∨ t.pc.toNat ≤ 0x10FE ∨ t.pc ∈ s.stack := by
  by_cases hw : i.mnemonic ∈ writtenBy .pc
  · cases i with
    | jp nnn | call nnn =>
      cases h
      refine .inr (.inr (.inl ?_))
      rw [setPc_pc, toNat_addrImm]
      omega
    | jpV0Nnn nnn =>
      cases h
      refine .inr (.inr (.inl ?_))
      rw [setPc_pc, toNat_jumpTarget]
      omega
    | seVxNn x nn | sneVxNn x nn | seVxVy x y | sneVxVy x y | skp x | sknp x =>
      cases h
      rw [skipIf_pc]
      split
      · exact .inr (.inl rfl)
      · exact .inl rfl
    | ret =>
      rcases execRet_cases s with ⟨a, l, hs, e⟩ | ⟨-, e⟩ <;> cases e.symm.trans h
      · exact .inr (.inr (.inr (by simp [hs])))
      · exact .inl rfl
    | _ => exact absurd hw (by simp [writtenBy, Instr.mnemonic])
  · exact .inl (exec_keeps .pc h hw)

/-- The stack gains no entry but the advanced `PC` that a `CALL` pushes. -/
theorem exec_mem_stack {a : Word} (ha : a ∈ t.stack) : a ∈ s.stack ∨ a = s.pc ∧ i ≠ .halt := by
  by_cases hw : i.mnemonic ∈ writtenBy .stack
  · cases i with
    | call nnn =>
      cases h
      rcases List.mem_cons.1 ha with rfl | ha
      · exact .inr ⟨rfl, by simp⟩
      · exact .inl ha
    | ret =>
      rcases execRet_cases s with ⟨b, l, hs, e⟩ | ⟨-, e⟩ <;> cases e.symm.trans h
      · exact .inl (hs ▸ List.mem_cons_of_mem b ha)
      · exact .inl ha
    | _ => exact absurd hw (by simp [writtenBy, Instr.mnemonic])
  · exact .inl ((exec_keeps .stack h hw : t.stack = s.stack) ▸ ha)

/-- Memory is written by `pokeBytes` alone, which keeps its canonical form. -/
theorem exec_mem_wf (hwf : s.mem.wf) : t.mem.wf := by
  by_cases hw : i.mnemonic ∈ writtenBy .mem
  · cases i with
    | ldBVx x =>
      rcases execLdBVx_cases x s with ⟨-, e⟩ | ⟨-, e⟩ <;> cases e.symm.trans h
      · exact pokeBytes_keeps_wf hwf _ _
      · exact hwf
    | ldMemVx x =>
      rcases execLdMemVx_cases x s with ⟨-, e⟩ | ⟨-, e⟩ <;> cases e.symm.trans h
      · rw [blockIncrement_mem]
        exact pokeBytes_keeps_wf hwf _ _
      · exact hwf
    | _ => exact absurd hw (by simp [writtenBy, Instr.mnemonic])
  · exact (exec_keeps .mem h hw : t.mem = s.mem) ▸ hwf

theorem exec_faultAddrOk (hok : s.run.faultAddrOk = true) : t.run.faultAddrOk = true := by
  rcases exec_run_cases h with e | ⟨-, rfl⟩ | ⟨x, -, rfl⟩ | ⟨c, -, rfl, hc⟩
  · rwa [e]
  · rfl
  · rfl
  · exact hc

/-- An instruction keeps the invariant where `PC` is, as after an advance, in 2..0x1000; the sentinel pushes nothing, so that
for it the lower bound is not needed. -/
theorem exec_keeps_inv (hinv : s.Inv) (hlow : i ≠ .halt → 2 ≤ s.pc.toNat) (hhigh : s.pc.toNat ≤ 0x1000) : t.Inv := by
  obtain ⟨hwf, -, hstack, hok⟩ := hinv
  refine ⟨exec_mem_wf h hwf, ?pc, fun a ha => ?stack, exec_faultAddrOk h hok⟩
  case pc =>
    rcases exec_pc_cases h with e | e | hle | hmem
    · rw [e]
      omega
    · rw [e, BitVec.toNat_add]
      show (s.pc.toNat + 2) % 65536 ≤ 0x10FE
      omega
    · exact hle
    · have := hstack t.pc hmem
      omega
  case stack =>
    rcases exec_mem_stack h ha with ha | ⟨rfl, hi⟩
    · exact hstack a ha
    · exact ⟨hlow hi, hhigh⟩

end

/-! ### A step -/

theorem inv_raiseFault {s : State} (hinv : s.Inv) {c : FaultCause} (hc : (RunState.faulted c).faultAddrOk = true) :
    (raiseFault c s).Inv := by
  obtain ⟨hwf, hpc, hstack, -⟩ := hinv
  exact ⟨hwf, hpc, hstack, hc⟩

theorem inv_advance {s : State} (hinv : s.Inv) (hpc : s.pc.toNat < 4095) : (setPc (s.pc + 2) s).Inv := by
  obtain ⟨hwf, -, hstack, hok⟩ := hinv
  refine ⟨hwf, ?_, hstack, hok⟩
  rw [setPc_pc, toNat_advance hpc]
  omega

/-- Settles O58: a step is idle, enters the fault of a fetch, advances, or runs an instruction after the advance, at whose
address there are then two more cells. -/
theorem stepKeepsInvariant : Obligations.StepKeepsInvariant := by
  intro s t hinv h
  rcases step_cases s with ⟨c, -, e, -⟩ | ⟨-, e, -⟩ | ⟨x, -, e, -⟩ | ⟨-, -, e, -⟩ |
    ⟨-, hpc, w, -, ⟨u, -, e, -⟩ | ⟨i, t', -, hexec, e, -⟩⟩ <;> cases e.symm.trans h
  · exact hinv
  · exact hinv
  · exact hinv
  · exact inv_raiseFault hinv (faultAddrOk_max s.pc)
  · exact inv_advance hinv hpc
  · rcases eq_or_ne i .halt with rfl | hi
    · exact exec_keeps_inv hexec hinv (fun hne => absurd rfl hne) (by rw [beforeExec_halt]; omega)
    · rw [beforeExec_other hi] at hexec
      have hadv : (setPc (s.pc + 2) s).pc.toNat = s.pc.toNat + 2 := toNat_advance hpc
      exact exec_keeps_inv hexec (inv_advance hinv hpc) (by omega) (by omega)

/-- Settles O59: memory lists nothing and the stack is empty. -/
theorem powerOnMeetsInvariant : Obligations.PowerOnMeetsInvariant :=
  ⟨Memory.wf_nil, by decide, by simp [State.reset], rfl⟩

/-! ### The other transactions, and a run -/

theorem inv_resetCore {s : State} (hinv : s.Inv) (clear : Bool) : (resetCore clear s).Inv := by
  obtain ⟨hwf, -, -, -⟩ := hinv
  refine ⟨?_, by simp, by simp, rfl⟩
  cases clear
  · exact hwf
  · exact Memory.wf_nil

theorem inv_pokeBytes {s : State} (hinv : s.Inv) (a : Nat) (bs : List Byte) : (pokeBytes a bs s).Inv := by
  obtain ⟨hwf, hpc, hstack, hok⟩ := hinv
  exact ⟨pokeBytes_keeps_wf hwf a bs, by simpa using hpc, by simpa using hstack, by simpa using hok⟩

theorem inv_keyDown {s : State} (hinv : s.Inv) (k : Reg) : (keyDown k s).Inv := by
  obtain ⟨hwf, hpc, hstack, hok⟩ := hinv
  unfold keyDown
  split
  · exact ⟨hwf, hpc, hstack, rfl⟩
  · exact ⟨hwf, hpc, hstack, hok⟩

theorem step_next (s : State) : ∃ t, step s = .next t := by
  obtain ⟨t, -, h, -⟩ := everyStepReturnsOneStatus s
  exact ⟨t, h⟩

/-- Every transaction ends in a next state, and keeps the invariant. -/
theorem transact_keeps_inv (tr : Transaction) {s : State} (hinv : s.Inv) : ∃ t, transact tr s = .next t ∧ t.Inv := by
  cases tr with
  | step =>
    obtain ⟨t, h⟩ := step_next s
    exact ⟨t, h, stepKeepsInvariant s t hinv h⟩
  | tick => exact ⟨tick s, rfl, hinv⟩
  | keyDown k => exact ⟨keyDown k s, rfl, inv_keyDown hinv k⟩
  | keyUp k => exact ⟨keyUp k s, rfl, hinv⟩
  | setMode m => exact ⟨setMode m s, rfl, hinv⟩
  | reset clear => exact ⟨resetCore clear s, rfl, inv_resetCore hinv clear⟩
  | load bytes => exact ⟨load bytes s, rfl, inv_pokeBytes (inv_resetCore hinv true) _ _⟩

theorem runTransactions_keeps_inv (ts : List Transaction) {s : State} (hinv : s.Inv) :
    ∃ t, runTransactions ts s = .next t ∧ t.Inv := by
  induction ts generalizing s with
  | nil => exact ⟨s, rfl, hinv⟩
  | cons tr ts ih =>
    obtain ⟨s', htr, hinv'⟩ := transact_keeps_inv tr hinv
    obtain ⟨t, hrun, hinv''⟩ := ih hinv'
    exact ⟨t, by rw [runTransactions, htr]; exact hrun, hinv''⟩

/-- Settles O60: it holds at power-on, and every transaction keeps it. -/
theorem everyRunKeepsInvariant : Obligations.EveryRunKeepsInvariant :=
  fun ts => runTransactions_keeps_inv ts powerOnMeetsInvariant

/-! ### Faults (R185) -/

/-- Settles O57: an unknown word raises no fault; a fetch out of bounds leaves `PC`; and an instruction that faults has written the
run state only, after the advance. -/
theorem faultsArePrecise : Obligations.FaultsArePrecise := by
  intro s t c hrun h hfault
  rcases step_cases s with ⟨d, hr, -⟩ | ⟨hr, -⟩ | ⟨x, hr, -⟩ | ⟨-, hpc, e, hst⟩ |
    ⟨-, hpc, w, -, ⟨u, -, e, -⟩ | ⟨i, t', -, hexec, e, hst⟩⟩
  · cases hr.symm.trans hrun
  · cases hr.symm.trans hrun
  · cases hr.symm.trans hrun
  · cases e.symm.trans h
    cases hfault
    exact ⟨(sameExcept_setRun s _).mono (by simp), hst, fun _ => rfl, fun hlt => absurd hpc (by omega)⟩
  · cases e.symm.trans h
    cases hrun.symm.trans hfault
  · cases e.symm.trans h
    have hready : (beforeExec i s).run = .ready := by cases i <;> exact hrun
    rcases exec_run_cases hexec with e | ⟨-, rfl⟩ | ⟨x, -, rfl⟩ | ⟨d, hi, rfl, -⟩
    · cases (hfault.symm.trans e).trans hready
    · cases hfault
    · cases hfault
    · cases hfault
      rw [beforeExec_other hi]
      refine ⟨((sameExcept_setPc s _).trans (sameExcept_setRun _ _)).mono (by simp), hst, fun hle => absurd hpc (by omega),
        fun _ => toNat_advance hpc⟩

end Sys2Proof.Machine
end

section
/-! Registers: arithmetic and logic (R110 to R123), the address register (R130 to R132), the timer transfers (R150 to R152). -/

namespace Sys2Proof.Machine

open Sys2Proof.Claims

/-! ### The registers that a write leaves -/

theorem regsSameExcept_setV (x : Reg) (b : Byte) (s : State) : RegsSameExcept [x] s (setV x b s) :=
  fun _ hr => getV_setV_other s (by simpa using hr) b

theorem regsSameExcept_writeResultFlag (x : Reg) (r : Byte × Bool) (s : State) :
    RegsSameExcept [x, 15] s (writeResultFlag .resultThenFlag x r s) := by
  intro z hz
  simp only [List.mem_cons, List.not_mem_nil, or_false, not_or] at hz
  obtain ⟨hx, hf⟩ := hz
  exact getV_writeResultFlag_other hx hf r s

/-- R21: the number in `VF` after a flag was written. -/
theorem toNat_flagByte_eq_flagNat (b : Bool) : (flagByte b).toNat = flagNat b := toNat_flagByte b

/-! ### Results and flags as numbers (R110) -/

theorem toNat_addCarry_sum (a b : Byte) : (addCarry a b).1.toNat = (a.toNat + b.toNat) % 256 := BitVec.toNat_add a b

theorem toNat_addCarry_flag (a b : Byte) : (flagByte (addCarry a b).2).toNat = (a.toNat + b.toNat) / 256 := by
  simp only [toNat_flagByte, addCarry, decide_eq_true_eq]
  split <;> omega

theorem toNat_subNoBorrow (a b : Byte) : (subNoBorrow a b).1.toNat = (a.toNat + 256 - b.toNat) % 256 := by
  rw [subNoBorrow, BitVec.toNat_sub]
  omega

theorem toNat_shiftRightOut (a : Byte) : (shiftRightOut a).1.toNat = a.toNat / 2 := by
  simp [shiftRightOut, Nat.shiftRight_eq_div_pow]

theorem toNat_shiftRightOut_flag (a : Byte) : (flagByte (shiftRightOut a).2).toNat = a.toNat % 2 := by
  simp only [toNat_flagByte, shiftRightOut, BitVec.getLsbD, Nat.testBit_zero, decide_eq_true_eq]
  split <;> omega

theorem toNat_shiftLeftOut (a : Byte) : (shiftLeftOut a).1.toNat = a.toNat * 2 % 256 := by
  simp [shiftLeftOut, Nat.shiftLeft_eq]

theorem toNat_shiftLeftOut_flag (a : Byte) : (flagByte (shiftLeftOut a).2).toNat = a.toNat / 128 := by
  simp only [toNat_flagByte, shiftLeftOut, BitVec.getLsbD, Nat.testBit_eq_decide_div_mod_eq, decide_eq_true_eq]
  split <;> omega

theorem shiftSource_eq {s : State} {x y : Reg} {a : Byte}
    (h : s.mode = .legacy ∧ a = getV s y ∨ s.mode = .extended ∧ a = getV s x) : shiftSource x y s = a := by
  rcases h with ⟨hm, rfl⟩ | ⟨hm, rfl⟩ <;> simp only [shiftSource, hm]

/-! ### The statements -/

/-- Settles O17: each is one write of `V[x]`. -/
theorem immediateLoadAndAdd : Obligations.ImmediateLoadAndAdd := by
  intro s x nn
  refine ⟨⟨_, rfl, getV_setV_same s x _, regsSameExcept_setV x _ s, sameExcept_setV s x _⟩,
    ⟨_, rfl, ?_, regsSameExcept_setV x _ s, sameExcept_setV s x _⟩⟩
  rw [getV_setV_same, BitVec.toNat_add]

/-- Settles O18: each is one write of `V[x]`. -/
theorem copyAndLogic : Obligations.CopyAndLogic := by
  intro s x y
  refine ⟨⟨_, rfl, getV_setV_same s x _, regsSameExcept_setV x _ s, sameExcept_setV s x _⟩,
    ⟨_, rfl, fun j hj => ?_, regsSameExcept_setV x _ s, sameExcept_setV s x _⟩,
    ⟨_, rfl, fun j hj => ?_, regsSameExcept_setV x _ s, sameExcept_setV s x _⟩,
    ⟨_, rfl, fun j hj => ?_, regsSameExcept_setV x _ s, sameExcept_setV s x _⟩⟩
  · rw [getV_setV_same, BitVec.getLsbD_or]
  · rw [getV_setV_same, BitVec.getLsbD_and]
  · rw [getV_setV_same, BitVec.getLsbD_xor]

/-- Settles O19: the result and the flag of `addCarry` as numbers. -/
theorem addRecordsCarry : Obligations.AddRecordsCarry := by
  intro s x y
  refine ⟨_, execAddVxVy_eq x y s, fun hx => ?_, ?_, regsSameExcept_writeResultFlag x _ s,
    sameExcept_writeResultFlag s _ x _⟩
  · rw [getV_writeResultFlag_dest hx, toNat_addCarry_sum]
  · rw [getV_writeResultFlag_vf, toNat_addCarry_flag]

/-- Settles O20: `SUBN` is `SUB` with the operands exchanged. -/
theorem subtractionsRecordNoBorrow : Obligations.SubtractionsRecordNoBorrow := by
  intro s x y
  refine ⟨⟨_, execSub_eq x y s, fun hx => ?_, ?_, regsSameExcept_writeResultFlag x _ s, sameExcept_writeResultFlag s _ x _⟩,
    ⟨_, execSubn_eq x y s, fun hx => ?_, ?_, regsSameExcept_writeResultFlag x _ s, sameExcept_writeResultFlag s _ x _⟩⟩
  · rw [getV_writeResultFlag_dest hx, toNat_subNoBorrow]
  · rw [getV_writeResultFlag_vf, toNat_flagByte_eq_flagNat]
    rfl
  · rw [getV_writeResultFlag_dest hx, toNat_subNoBorrow]
  · rw [getV_writeResultFlag_vf, toNat_flagByte_eq_flagNat]
    rfl

/-- Settles O21: the mode selects the source, whatever it is the shift is the same. -/
theorem shiftsRecordTheBitShiftedOut : Obligations.ShiftsRecordTheBitShiftedOut := by
  intro s x y a ha
  have hsrc : shiftSource x y s = a := shiftSource_eq ha
  refine ⟨⟨_, execShr_eq x y s, fun hx => ?_, ?_, regsSameExcept_writeResultFlag x _ s, sameExcept_writeResultFlag s _ x _⟩,
    ⟨_, execShl_eq x y s, fun hx => ?_, ?_, regsSameExcept_writeResultFlag x _ s, sameExcept_writeResultFlag s _ x _⟩⟩
  · rw [getV_writeResultFlag_dest hx, hsrc, toNat_shiftRightOut]
  · rw [getV_writeResultFlag_vf, hsrc, toNat_shiftRightOut_flag]
  · rw [getV_writeResultFlag_dest hx, hsrc, toNat_shiftLeftOut]
  · rw [getV_writeResultFlag_vf, hsrc, toNat_shiftLeftOut_flag]

theorem and_and_not_self (r nn : Byte) : r &&& nn &&& ~~~nn = 0 := by
  rw [BitVec.and_assoc, BitVec.and_not_self]
  exact BitVec.and_zero

/-- Settles O23: the draw, masked, is written to `V[x]`. -/
theorem randomByteIsMasked : Obligations.RandomByteIsMasked := by
  intro s x nn
  have hx : getV (setV x (Config.draw8 s.draws &&& nn) (drawByte s).2) x = Config.draw8 s.draws &&& nn :=
    getV_setV_same _ x _
  refine ⟨setV x (Config.draw8 s.draws &&& nn) (drawByte s).2, rfl, ⟨_, rfl, fun j _ => ?_⟩, ?_, fun hnn => ?_, rfl,
    regsSameExcept_setV x _ _, ((sameExcept_drawByte s).trans (sameExcept_setV _ x _)).mono (by simp)⟩
  · rw [hx, BitVec.getLsbD_and]
  · rw [hx, and_and_not_self]
  · rw [hx, hnn]
    exact BitVec.and_zero

/-- Settles O24: five times a byte does not wrap. -/
theorem addressRegisterInstructions : Obligations.AddressRegisterInstructions := by
  refine ⟨fun s nnn => ⟨_, rfl, toNat_addrImm nnn, sameExcept_setI s _⟩, fun s x => ⟨_, rfl, ?_, sameExcept_setI s _⟩,
    fun s x => ⟨_, rfl, ?_, sameExcept_setI s _⟩⟩
  · rw [setI_i, BitVec.toNat_add, toNat_zext16]
  · rw [setI_i, BitVec.toNat_mul, toNat_zext16]
    exact Nat.mod_eq_of_lt (by have := (getV s x).isLt; show (getV s x).toNat * 5 < 65536; omega)

/-- Settles O36: each is one write. -/
theorem timerTransfers : Obligations.TimerTransfers := by
  intro s x
  exact ⟨⟨_, rfl, getV_setV_same s x _, regsSameExcept_setV x _ s, sameExcept_setV s x _⟩,
    ⟨_, rfl, rfl, sameExcept_setDt s _⟩, ⟨_, rfl, rfl, sameExcept_setSt s _⟩⟩

end Sys2Proof.Machine
end

section
/-! The memory instructions (R65, R133 to R135): what each store leaves in every cell, what a block load leaves in every register,
and the fault of each where its range is out of bounds. -/

namespace Sys2Proof.Machine

open Sys2Proof.Claims

/-! ### The range check (R65) -/

/-- A block written is read back byte by byte. -/
theorem map_peek_pokeBytes (s : State) {a : Nat} {bs : List Byte} (h : a + bs.length ≤ 4096) :
    ((List.range bs.length).map fun k => peek (pokeBytes a bs s) (a + k)) = bs := by
  refine List.ext_getElem (by simp) fun k hk hk' => ?_
  rw [List.getElem_map, List.getElem_range, peek_pokeBytes _ _ _ _ h, if_pos (by omega), Nat.add_sub_cancel_left,
    List.getD_eq_getElem _ _ hk']

theorem readBytes_pokeBytes (s : State) {a : Nat} {bs : List Byte} (h : a + bs.length ≤ 4096) :
    readBytes (pokeBytes a bs s) a bs.length = .ok bs := by
  rw [readBytes_ok _ (.inr h), map_peek_pokeBytes s h]

/-- Settles O26: the check is a comparison of the range's end, and in bounds no single access can fail. -/
theorem rangeCheckedBeforeAccess : Obligations.RangeCheckedBeforeAccess := by
  intro s a bs
  refine ⟨fun h => ?inBounds, fun h hne => ?outOfBounds⟩
  case inBounds =>
    have hlen : bs.length = 0 ∨ a + bs.length ≤ 4096 := h.symm.imp_left fun e => by rw [e]; rfl
    refine ⟨memCheck_ok hlen, ⟨_, writeBytes_ok s h.symm, ?_⟩, _, readBytes_ok s hlen, by simp⟩
    rcases h with h | rfl
    · exact readBytes_pokeBytes s h
    · rfl
  case outOfBounds =>
    have hcheck : memCheck a bs.length = .error (.memoryFault (max a 4096)) :=
      memCheck_error (by simpa using hne) h
    exact ⟨hcheck, by simp only [storeRange, hcheck], by simp only [loadRange, hcheck]⟩

/-! ### The instructions with their range in bounds -/

section
variable {s : State} {x : Reg}

theorem exec_ldBVx (h : effAddr s 2 < 4096) :
    exec (.ldBVx x) s = .next (pokeBytes s.i.toNat (bcdDigits (getV s x)) s) := by
  rw [effAddr] at h
  rcases execLdBVx_cases x s with ⟨-, e⟩ | ⟨h', -⟩
  · exact e
  · omega

theorem exec_ldMemVx (h : effAddr s x.val < 4096) :
    exec (.ldMemVx x) s = .next (blockIncrement x (pokeBytes s.i.toNat (regBlock x s) s)) := by
  rw [effAddr] at h
  rcases execLdMemVx_cases x s with ⟨-, e⟩ | ⟨h', -⟩
  · exact e
  · omega

theorem exec_ldVxMem (h : effAddr s x.val < 4096) :
    exec (.ldVxMem x) s = .next (blockIncrement x (setRegBlock 0 (loadedBytes x s) s)) := by
  rw [effAddr] at h
  rcases execLdVxMem_cases x s with ⟨-, e⟩ | ⟨h', -⟩
  · exact e
  · omega

/-! ### The same out of bounds (R182) -/

theorem exec_ldBVx_fault (h : 4096 ≤ effAddr s 2) :
    exec (.ldBVx x) s = .next (raiseFault (.memoryFault (max s.i.toNat 4096)) s) := by
  rw [effAddr] at h
  rcases execLdBVx_cases x s with ⟨h', -⟩ | ⟨-, e⟩
  · omega
  · exact e

theorem exec_ldMemVx_fault (h : 4096 ≤ effAddr s x.val) :
    exec (.ldMemVx x) s = .next (raiseFault (.memoryFault (max s.i.toNat 4096)) s) := by
  rw [effAddr] at h
  rcases execLdMemVx_cases x s with ⟨h', -⟩ | ⟨-, e⟩
  · omega
  · exact e

theorem exec_ldVxMem_fault (h : 4096 ≤ effAddr s x.val) :
    exec (.ldVxMem x) s = .next (raiseFault (.memoryFault (max s.i.toNat 4096)) s) := by
  rw [effAddr] at h
  rcases execLdVxMem_cases x s with ⟨h', -⟩ | ⟨-, e⟩
  · omega
  · exact e

theorem exec_drw_fault {y : Reg} {n : BitVec 4} (hn : n ≠ 0) (h : 4097 ≤ effAddr s n.toNat) :
    exec (.drw x y n) s = .next (raiseFault (.memoryFault (max s.i.toNat 4096)) s) := by
  have hpos : n.toNat ≠ 0 := fun e => hn (BitVec.eq_of_toNat_eq e)
  rw [effAddr] at h
  rcases execDrw_cases x y n s with ⟨h', -⟩ | ⟨-, -, e⟩
  · omega
  · exact e

/-! ### Every cell after a store -/

/-- R134: a cell of the block has the register that falls on it, any other its old byte. -/
theorem peek_blockStore (h : effAddr s x.val < 4096) (c : Nat) :
    peek (pokeBytes s.i.toNat (regBlock x s) s) c = blockStoredByte x s c := by
  simp only [effAddr] at h
  rw [peek_pokeBytes _ _ _ _ (by rw [length_regBlock]; omega), length_regBlock, blockStoredByte]
  by_cases hc : s.i.toNat ≤ c ∧ c < s.i.toNat + (x.val + 1)
  · have hk : (Fin.ofNat 16 (c - effAddr s 0)).val = c - s.i.toNat := Nat.mod_eq_of_lt (by simp only [effAddr]; omega)
    rw [if_pos hc, if_pos (by simp only [effAddr]; omega), ← hk]
    exact getD_regBlock x _ s (Fin.le_def.2 (by omega))
  · rw [if_neg hc, if_neg (by simp only [effAddr]; omega)]

/-- R133: the three cells have the digits, any other its old byte. -/
theorem peek_digitStore (h : effAddr s 2 < 4096) (c : Nat) :
    peek (pokeBytes s.i.toNat (bcdDigits (getV s x)) s) c = digitStoredByte x s c := by
  have hlen : (bcdDigits (getV s x)).length = 3 := rfl
  have haddr : ∀ k, effAddr s k = s.i.toNat + k := fun _ => rfl
  rw [haddr] at h
  rw [peek_pokeBytes _ _ _ _ (by rw [hlen]; omega), hlen, digitStoredByte, haddr, haddr, haddr]
  by_cases h0 : c = s.i.toNat
  · rw [h0, if_pos (by omega), if_pos (by omega), Nat.sub_self]
    rfl
  by_cases h1 : c = s.i.toNat + 1
  · rw [h1, if_pos (by omega), if_neg (by omega), if_pos rfl, Nat.add_sub_cancel_left]
    rfl
  by_cases h2 : c = s.i.toNat + 2
  · rw [h2, if_pos (by omega), if_neg (by omega), if_neg (by omega), if_pos rfl, Nat.add_sub_cancel_left]
    rfl
  · rw [if_neg (by omega), if_neg (by omega), if_neg h1, if_neg h2]

/-- The cell at the k-th address of the block. -/
theorem blockStoredByte_effAddr {k : Reg} (h : k ≤ x) : blockStoredByte x s (effAddr s k.val) = getV s k := by
  rw [Fin.le_def] at h
  have hk : Fin.ofNat 16 (effAddr s k.val - effAddr s 0) = k := by
    apply Fin.ext
    simp only [Fin.val_ofNat, effAddr]
    omega
  rw [blockStoredByte, if_pos (by simp only [effAddr]; omega), hk]

theorem blockStoredByte_outside {c : Nat} (h : c < effAddr s 0 ∨ effAddr s 0 + x.val + 1 ≤ c) :
    blockStoredByte x s c = peek s c := by
  rw [blockStoredByte, if_neg (by simp only [effAddr] at h ⊢; omega)]

theorem digitStoredByte_outside {c : Nat} (h : c < effAddr s 0 ∨ effAddr s 0 + 3 ≤ c) :
    digitStoredByte x s c = peek s c := by
  simp only [effAddr] at h
  rw [digitStoredByte, if_neg (by simp only [effAddr]; omega), if_neg (by simp only [effAddr]; omega),
    if_neg (by simp only [effAddr]; omega)]

theorem toNat_digit {n : Nat} (h : n < 256) : (BitVec.ofNat 8 n).toNat = n := by
  rw [BitVec.toNat_ofNat]
  omega

/-! ### The address register after a block transfer -/

theorem toNat_blockIncrement_i (x : Reg) (s : State) : (blockIncrement x s).i.toNat = blockEnd x s := by
  unfold blockEnd
  split
  case h_1 hm => exact blockIncrement_legacy hm x
  case h_2 hm => rw [blockIncrement_extended hm]

theorem blockEnd_congr {s t : State} (hi : t.i = s.i) (hm : t.mode = s.mode) (x : Reg) : blockEnd x t = blockEnd x s := by
  simp only [blockEnd, hi, hm]

end

/-! ### The statements of R133 to R135 -/

/-- Settles O27: the cells after the store, at the three addresses and elsewhere. -/
theorem bcdStoreWritesThreeDigits : Obligations.BcdStoreWritesThreeDigits := by
  intro s x h
  have hb := (getV s x).isLt
  refine ⟨_, exec_ldBVx h, ?_, ?_, ?_, ?_, sameExcept_pokeBytes _ _ s⟩
  · rw [peek_digitStore h, digitStoredByte, if_pos rfl, toNat_digit (by omega)]
  · rw [peek_digitStore h, digitStoredByte, if_neg (by simp [effAddr]), if_pos rfl, toNat_digit (by omega)]
  · rw [peek_digitStore h, digitStoredByte, if_neg (by simp [effAddr]), if_neg (by simp [effAddr]), if_pos rfl,
      toNat_digit (by omega)]
  · rintro a rfl c hc
    rw [peek_digitStore h, digitStoredByte_outside hc]

/-- Settles O28: the cells after the store; then `I` moves. -/
theorem blockStoreWritesRegisters : Obligations.BlockStoreWritesRegisters := by
  intro s x h
  refine ⟨_, exec_ldMemVx h, fun k hk => ?_, ?_, ?_, ?_⟩
  · rw [peek_blockIncrement, peek_blockStore h, blockStoredByte_effAddr hk]
  · rintro a rfl c hc
    rw [peek_blockIncrement, peek_blockStore h, blockStoredByte_outside hc]
  · rw [toNat_blockIncrement_i]
    exact blockEnd_congr (pokeBytes_i s _ _) (pokeBytes_mode s _ _) x
  · exact (sameExcept_pokeBytes _ _ s).trans (sameExcept_blockIncrement _ x)

/-- A register of the block after a block load. -/
theorem getV_blockLoad {x k : Reg} (h : k ≤ x) (s : State) :
    getV (setRegBlock 0 (loadedBytes x s) s) k = peek s (effAddr s k.val) := by
  rw [Fin.le_def] at h
  rw [getV_setRegBlock, length_loadedBytes, if_pos (by omega), List.getD_eq_getElem _ _ (by rw [length_loadedBytes]; omega)]
  simp [loadedBytes, effAddr]

/-- Settles O29: the registers after the load; then `I` moves. -/
theorem blockLoadReadsRegisters : Obligations.BlockLoadReadsRegisters := by
  intro s x h
  refine ⟨_, exec_ldVxMem h, fun k hk => ?_, fun k hk => ?_, ?_, ?_⟩
  · rw [getV_blockIncrement, getV_blockLoad hk]
  · rw [getV_blockIncrement, getV_blockLoad_other (not_le.2 hk)]
  · rw [toNat_blockIncrement_i]
    exact blockEnd_congr (setRegBlock_i _ _ s) (setRegBlock_mode _ _ s) x
  · exact (sameExcept_setRegBlock s _ _).trans (sameExcept_blockIncrement _ x)

/-- Settles O30: the entry of the fault writes the run state only. -/
theorem memoryInstructionsFaultOutOfBounds : Obligations.MemoryInstructionsFaultOutOfBounds := by
  intro s x y n
  exact ⟨fun h => ⟨_, exec_ldBVx_fault h, rfl, sameExcept_setRun s _⟩,
    fun h => ⟨_, exec_ldMemVx_fault h, rfl, sameExcept_setRun s _⟩,
    fun h => ⟨_, exec_ldVxMem_fault h, rfl, sameExcept_setRun s _⟩,
    fun hn h => ⟨_, exec_drw_fault hn h, rfl, sameExcept_setRun s _⟩⟩

/-- Settles O31: the load reads the block at the same `I`, as in Extended mode the store leaves it and `u` differs in its registers
only. -/
theorem blockStoreThenLoadRestores : Obligations.BlockStoreThenLoadRestores := by
  intro s u x hm h hu
  have hstore := exec_ldMemVx h
  rw [blockIncrement_extended (by rw [pokeBytes_mode, hm])] at hstore
  have hsame := hu _ hstore
  have hi : u.i = s.i := (hsame .i (by simp)).trans (pokeBytes_i s _ _)
  have hmode : u.mode = .extended := ((hsame .mode (by simp)).trans (pokeBytes_mode s _ _)).trans hm
  have hmem (c : Nat) : peek u c = blockStoredByte x s c := (hsame .mem (by simp) c).trans (peek_blockStore h c)
  have haddr (k : Nat) : effAddr u k = effAddr s k := by rw [effAddr, effAddr, hi]
  have hload := exec_ldVxMem (show effAddr u x.val < 4096 by rw [haddr]; exact h)
  rw [blockIncrement_extended (by rw [setRegBlock_mode, hmode])] at hload
  refine ⟨_, hload, fun k hk => ?_, fun k hk => getV_blockLoad_other (not_le.2 hk) u, (setRegBlock_i _ _ u).trans hi⟩
  rw [getV_blockLoad hk, hmem, haddr, blockStoredByte_effAddr hk]

/-- What is fetched is also what runs. -/
theorem nextFetchIs_of_fetchWord {t : State} {w : Word} (h : fetchWord t = .ok w) : NextFetchIs t w :=
  ⟨h, fun hr _ hd => step_run (cycleCase_run hr h hd)⟩

/-- Settles O32: both cells that the fetch reads are cells after the store. -/
theorem storeIsSeenByNextFetch : Obligations.StoreIsSeenByNextFetch := by
  intro s x hpc
  refine ⟨fun h => ⟨_, exec_ldMemVx h, by simp, nextFetchIs_of_fetchWord ?_⟩,
    fun h => ⟨_, exec_ldBVx h, by simp, nextFetchIs_of_fetchWord ?_⟩⟩
  · rw [fetchWord_ok (by simpa using hpc)]
    simp only [blockIncrement_pc, pokeBytes_pc, peek_blockIncrement, peek_blockStore h]
  · rw [fetchWord_ok (by simpa using hpc)]
    simp only [pokeBytes_pc, peek_digitStore h]

end Sys2Proof.Machine
end

section
/-! The display (R140 to R143): the sprite of a `DRW` as `spritePixel` has it, one drawing, and two. -/

namespace Sys2Proof.Machine

open Sys2Proof.Claims

/-- Settles O33: the cleared screen has every pixel off. -/
theorem clearScreen : Obligations.ClearScreen := by
  intro s
  exact ⟨_, rfl, fun a c => fbGet_clear a c, sameExcept_setFb s _⟩

/-! ### The sprite (R142, R143) -/

/-- The bytes of the sprite, the top row first. -/
theorem drawn_eq (x y : Reg) (n : BitVec 4) (s : State) : drawn x y n s =
    drawRows (getV s x).toNat (getV s y).toNat ((List.range n.toNat).map fun k => peek s (s.i.toNat + k)) (s.fb, false) := rfl

theorem spriteBit_eq_spritePixel (s : State) (x0 y0 n a c : Nat) :
    spriteBit x0 y0 ((List.range n).map fun k => peek s (s.i.toNat + k)) a c = spritePixel s x0 y0 n a c := by
  rw [spriteBit, rowBit, spritePixel, List.length_map, List.length_range, ← Bool.and_assoc, ← Bool.decide_and]
  by_cases h : x0 ≤ a ∧ a < x0 + 8 ∧ y0 ≤ c ∧ c < y0 + n
  · rw [decide_eq_true (by omega), decide_eq_true h, List.getD_eq_getElem _ _ (by simp; omega)]
    simp [effAddr]
  · rw [decide_eq_false (by omega), decide_eq_false h]
    rfl

section
variable {s : State} {x y : Reg} {n : BitVec 4}

/-- The sprite's bit for a pixel, as the coordinates and the rows in memory give it. -/
abbrev spriteOf (s : State) (x y : Reg) (n : BitVec 4) (a c : Nat) : Bool :=
  spritePixel s (getV s x).toNat (getV s y).toNat n.toNat a c

theorem fbGet_drawn (x y : Reg) (n : BitVec 4) (s : State) (a c : Nat) :
    fbGet (drawn x y n s).1 a c = (fbGet s.fb a c ^^ (decide (onScreen a c) && spriteOf s x y n a c)) := by
  rw [drawn_eq, (drawRows_spec _ _ _ _).1, spriteBit_eq_spritePixel]

/-- R142: the collision is a pixel of the sprite that was on; being on, it is on the screen. -/
theorem drawn_collision_iff (x y : Reg) (n : BitVec 4) (s : State) :
    (drawn x y n s).2 = true ↔ ∃ a c, spriteOf s x y n a c = true ∧ fbGet s.fb a c = true := by
  rw [drawn_eq, (drawRows_spec _ _ _ _).2]
  simp only [spriteBit_eq_spritePixel, Bool.false_eq_true, false_or]

theorem onScreen_of_fbGet {f : Framebuffer} {a c : Nat} (h : fbGet f a c = true) : onScreen a c := by
  by_contra hout
  rw [fbGet_out f hout] at h
  cases h

/-! ### One drawing -/

/-- The state after a `DRW` that completes. -/
abbrev afterDraw (x y : Reg) (n : BitVec 4) (s : State) : State :=
  setV vf (flagByte (drawn x y n s).2) (setFb (drawn x y n s).1 s)

theorem exec_drw (h : n = 0 ∨ effAddr s n.toNat ≤ 4096) : exec (.drw x y n) s = .next (afterDraw x y n s) := by
  rcases execDrw_cases x y n s with ⟨-, e⟩ | ⟨hn, hout, -⟩
  · exact e
  · rcases h with rfl | h
    · exact absurd rfl hn
    · rw [effAddr] at h
      omega

theorem getV_afterDraw_vf : getV (afterDraw x y n s) 15 = flagByte (drawn x y n s).2 := getV_setV_same _ 15 _

theorem flagByte_eq_one_iff (b : Bool) : flagByte b = 1 ↔ b = true := by cases b <;> decide

theorem flagByte_eq_zero_iff (b : Bool) : flagByte b = 0 ↔ b = false := by cases b <;> decide

theorem vf_afterDraw_eq_one (h : ∃ a c, spriteOf s x y n a c = true ∧ fbGet s.fb a c = true) :
    getV (afterDraw x y n s) 15 = 1 := by
  rw [getV_afterDraw_vf, flagByte_eq_one_iff, drawn_collision_iff]
  exact h

theorem vf_afterDraw_eq_zero (h : ∀ a c, spriteOf s x y n a c = true → fbGet s.fb a c = false) :
    getV (afterDraw x y n s) 15 = 0 := by
  rw [getV_afterDraw_vf, flagByte_eq_zero_iff, Bool.eq_false_iff, Ne, drawn_collision_iff]
  rintro ⟨a, c, hs, hf⟩
  rw [h a c hs] at hf
  cases hf

/-- Settles O34: a pixel that is on is on the screen, so that the quantifiers over the grid lose no collision. -/
theorem drawFlipsSpritePixels : Obligations.DrawFlipsSpritePixels := by
  intro s x y n h
  refine ⟨_, exec_drw h, fun a c ha hc => ?_, ?_, fun hoff => vf_afterDraw_eq_zero fun a c hsprite => ?_,
    fun r hr => getV_setV_other _ (by simpa using hr) _, ?_⟩
  · exact (fbGet_drawn x y n s a c).trans (by rw [decide_eq_true ⟨ha, hc⟩]; rfl)
  · rintro ⟨a, c, -, -, hf, hsprite⟩
    exact vf_afterDraw_eq_one ⟨a, c, hsprite, hf⟩
  · rw [Bool.eq_false_iff]
    intro hf
    obtain ⟨ha, hc⟩ := onScreen_of_fbGet hf
    cases hsprite.symm.trans (hoff a c ha hc hf)
  · exact ((sameExcept_setFb s _).trans (sameExcept_setV _ vf _)).mono (by simp)

/-! ### Two drawings -/

/-- Drawing changes neither the rows in memory nor, unless it is `VF`, a coordinate. -/
theorem spriteOf_afterDraw (hx : x ≠ 15) (hy : y ≠ 15) (a c : Nat) :
    spriteOf (afterDraw x y n s) x y n a c = spriteOf s x y n a c := by
  rw [spriteOf, getV_setV_other _ hx, getV_setV_other _ hy]
  rfl

/-- A pixel exclusive-or the same bit twice is itself. -/
theorem fbGet_afterDraw_afterDraw (hx : x ≠ 15) (hy : y ≠ 15) (a c : Nat) :
    fbGet (afterDraw x y n (afterDraw x y n s)).fb a c = fbGet s.fb a c := by
  have hfst : ∀ u : State, fbGet (afterDraw x y n u).fb a c =
      (fbGet u.fb a c ^^ (decide (onScreen a c) && spriteOf u x y n a c)) := fun u => fbGet_drawn x y n u a c
  rw [hfst, hfst, spriteOf_afterDraw hx hy, Bool.xor_assoc, Bool.xor_self, Bool.xor_false]

/-- Settles O35: on a blank place the first drawing turns on every pixel of the sprite that is on the screen, and the second meets
one of them. -/
theorem drawTwiceRestoresScreen : Obligations.DrawTwiceRestoresScreen := by
  intro s x y n h hx hy
  refine ⟨_, _, exec_drw h, exec_drw h, fun a c => fbGet_afterDraw_afterDraw hx hy a c, fun hblank hsome => ⟨?first, ?second⟩⟩
  case first =>
    refine vf_afterDraw_eq_zero fun a c hsprite => ?_
    by_cases hin : onScreen a c
    · exact hblank a c hin.1 hin.2 hsprite
    · exact fbGet_out s.fb hin
  case second =>
    obtain ⟨a, c, ha, hc, hsprite⟩ := hsome
    refine vf_afterDraw_eq_one ⟨a, c, (spriteOf_afterDraw hx hy a c).trans hsprite, ?_⟩
    refine (fbGet_drawn x y n s a c).trans ?_
    have hoff : fbGet s.fb a c = false := hblank a c ha hc hsprite
    rw [hoff, decide_eq_true ⟨ha, hc⟩, spriteOf, hsprite]
    rfl

end

end Sys2Proof.Machine
end

section
/-! The timers and the mode beside the instructions (R25, R30, R171), the key wait to its end (R155, R163), reset and power-on
(R33, R201). -/

namespace Sys2Proof.Machine

open Sys2Proof.Claims

/-! ### The three fields that few instructions look at -/

/-- `s` with other timers and another mode. -/
def setTimersMode (d e : Byte) (m : Mode) (s : State) : State := { s with dt := d, st := e, mode := m }

section
variable (d e : Byte) (m : Mode) (s : State)

theorem tick_eq_setTimersMode : tick s = setTimersMode (decay s.dt) (decay s.st) s.mode s := rfl

theorem setSt_eq_setTimersMode (b : Byte) : setSt b s = setTimersMode s.dt b s.mode s := rfl

theorem setMode_eq_setTimersMode : setMode m s = setTimersMode s.dt s.st m s := rfl

theorem skipIf_setTimersMode (b : Bool) : skipIf b (setTimersMode d e m s) = setTimersMode d e m (skipIf b s) := by
  cases b <;> rfl

theorem pokeBytes_setTimersMode (a : Nat) (bs : List Byte) :
    pokeBytes a bs (setTimersMode d e m s) = setTimersMode d e m (pokeBytes a bs s) := by
  induction bs generalizing a s with
  | nil => rfl
  | cons b bs ih => exact ih (poke a b s) (a + 1)

theorem setRegBlock_setTimersMode (k : Nat) (bs : List Byte) :
    setRegBlock k bs (setTimersMode d e m s) = setTimersMode d e m (setRegBlock k bs s) := by
  induction bs generalizing k s with
  | nil => rfl
  | cons b bs ih => exact ih { s with v := s.v.setIfInBounds k b } (k + 1)

/-- The block increment reads the mode, which is then that of `s`. -/
theorem blockIncrement_setTimersMode (x : Reg) (hm : m = s.mode) :
    blockIncrement x (setTimersMode d e m s) = setTimersMode d e m (blockIncrement x s) := by
  subst hm
  simp only [blockIncrement, setTimersMode]
  cases s.mode <;> rfl

end

/-- An instruction that is no timer transfer, and that the mode does not affect where it differs, computes the same under other
timers and another mode, and leaves them. -/
theorem exec_setTimersMode {i : Instr} {s t : State} (d e : Byte) {m : Mode}
    (htimer : ∀ x, i ≠ .ldVxDt x ∧ i ≠ .ldDtVx x ∧ i ≠ .ldStVx x) (hmode : m = s.mode ∨ i.mnemonic ∉ modeDependent)
    (h : exec i s = .next t) : exec i (setTimersMode d e m s) = .next (setTimersMode d e m t) := by
  have hdep (hi : i.mnemonic ∈ modeDependent) : m = s.mode := hmode.resolve_right (not_not_intro hi)
  cases i with
  | ldVxDt x => exact absurd rfl (htimer x).1
  | ldDtVx x => exact absurd rfl (htimer x).2.1
  | ldStVx x => exact absurd rfl (htimer x).2.2
  | shr x y | shl x y =>
    obtain rfl := hdep (by simp [modeDependent, Instr.mnemonic])
    cases h
    rfl
  | seVxNn x nn | sneVxNn x nn | seVxVy x y | sneVxVy x y | skp x | sknp x =>
    cases h
    exact congrArg _ (skipIf_setTimersMode d e m s _)
  | ret =>
    rcases hs : s.stack with _ | ⟨a, l⟩
    · cases (exec_ret_nil hs).symm.trans h
      exact exec_ret_nil hs
    · cases (exec_ret_cons hs).symm.trans h
      exact exec_ret_cons hs
  | drw x y n =>
    by_cases hb : n = 0 ∨ effAddr s n.toNat ≤ 4096
    · cases (exec_drw hb).symm.trans h
      exact exec_drw hb
    · obtain ⟨hn, hb⟩ := not_or.1 hb
      cases (exec_drw_fault hn (not_le.1 hb)).symm.trans h
      exact exec_drw_fault hn (not_le.1 hb)
  | ldBVx x =>
    rcases Nat.lt_or_ge (effAddr s 2) 4096 with hb | hb
    · cases (exec_ldBVx hb).symm.trans h
      exact Eq.trans (exec_ldBVx hb) (congrArg _ (pokeBytes_setTimersMode d e m s _ _))
    · cases (exec_ldBVx_fault hb).symm.trans h
      exact exec_ldBVx_fault hb
  | ldMemVx x =>
    have hm := hdep (by simp [modeDependent, Instr.mnemonic])
    rcases Nat.lt_or_ge (effAddr s x.val) 4096 with hb | hb
    · cases (exec_ldMemVx hb).symm.trans h
      refine Eq.trans (exec_ldMemVx hb) (congrArg _ ?_)
      exact (congrArg _ (pokeBytes_setTimersMode d e m s _ _)).trans
        (blockIncrement_setTimersMode d e m _ x (by rw [pokeBytes_mode, hm]))
    · cases (exec_ldMemVx_fault hb).symm.trans h
      exact exec_ldMemVx_fault hb
  | ldVxMem x =>
    have hm := hdep (by simp [modeDependent, Instr.mnemonic])
    rcases Nat.lt_or_ge (effAddr s x.val) 4096 with hb | hb
    · cases (exec_ldVxMem hb).symm.trans h
      refine Eq.trans (exec_ldVxMem hb) (congrArg _ ?_)
      exact (congrArg _ (setRegBlock_setTimersMode d e m s _ _)).trans
        (blockIncrement_setTimersMode d e m _ x (by rw [setRegBlock_mode, hm]))
    · cases (exec_ldVxMem_fault hb).symm.trans h
      exact exec_ldVxMem_fault hb
  | _ =>
    cases h
    rfl

/-! ### A tick, a change of `ST`, a change of mode, each before or after an instruction -/

section
variable {i : Instr} {s t : State} (h : exec i s = .next t)
include h

theorem exec_tick (htimer : ∀ x, i ≠ .ldVxDt x ∧ i ≠ .ldDtVx x ∧ i ≠ .ldStVx x) :
    exec i (tick s) = .next (tick t) := by
  rw [tick_eq_setTimersMode, tick_eq_setTimersMode, exec_dt h fun x => (htimer x).2.1, exec_st h fun x => (htimer x).2.2,
    exec_mode h]
  exact exec_setTimersMode _ _ htimer (.inl rfl) h

/-- No instruction reads `ST` (R25). -/
theorem exec_setSt (hi : ∀ x, i ≠ .ldStVx x) (b : Byte) : exec i (setSt b s) = .next (setSt b t) := by
  by_cases htransfer : ∃ x, i = .ldVxDt x ∨ i = .ldDtVx x
  · obtain ⟨x, rfl | rfl⟩ := htransfer <;> cases h <;> rfl
  · have htimer (x : Reg) : i ≠ .ldVxDt x ∧ i ≠ .ldDtVx x ∧ i ≠ .ldStVx x :=
      ⟨fun e => htransfer ⟨x, .inl e⟩, fun e => htransfer ⟨x, .inr e⟩, hi x⟩
    rw [setSt_eq_setTimersMode, setSt_eq_setTimersMode, exec_dt h fun x => (htimer x).2.1, exec_mode h]
    exact exec_setTimersMode _ _ htimer (.inl rfl) h

/-- The instructions that R30 does not name compute the same in both modes. -/
theorem exec_setMode (hi : i.mnemonic ∉ modeDependent) (m : Mode) : exec i (setMode m s) = .next (setMode m t) := by
  by_cases htransfer : ∃ x, i = .ldVxDt x ∨ i = .ldDtVx x ∨ i = .ldStVx x
  · obtain ⟨x, rfl | rfl | rfl⟩ := htransfer <;> cases h <;> rfl
  · have htimer (x : Reg) : i ≠ .ldVxDt x ∧ i ≠ .ldDtVx x ∧ i ≠ .ldStVx x :=
      ⟨fun e => htransfer ⟨x, .inl e⟩, fun e => htransfer ⟨x, .inr (.inl e)⟩, fun e => htransfer ⟨x, .inr (.inr e)⟩⟩
    rw [setMode_eq_setTimersMode, setMode_eq_setTimersMode, exec_dt h fun x => (htimer x).2.1,
      exec_st h fun x => (htimer x).2.2]
    exact exec_setTimersMode _ _ htimer (.inr hi) h

end

/-! ### The frame of a step and of a key-down -/

theorem beforeExec_keeps (p : Part) (hp : p ≠ .pc) (i : Instr) (s : State) : p.Kept s (beforeExec i s) := by
  rcases eq_or_ne i .halt with rfl | hi
  · cases p <;> rfl
  · rw [beforeExec_other hi]
    exact Part.kept_of_replace rfl hp

/-- A step keeps every piece but `PC` and the run state, unless it runs an instruction that is listed as a writer of it. -/
theorem step_keeps (p : Part) {s t : State} (h : step s = .next t) (hpc : p ≠ .pc) (hrun : p ≠ .run)
    (hp : ∀ i, cycleCase s = .run i → i.mnemonic ∉ writtenBy p) : p.Kept s t := by
  cases hc : cycleCase s with
  | idle st =>
    simp only [step, cycle, hc, CycleCase.effect] at h
    cases h
    cases p <;> rfl
  | fetchFault c =>
    simp only [step, cycle, hc, CycleCase.effect] at h
    cases h
    exact Part.kept_of_replace rfl hrun
  | unknown w =>
    simp only [step, cycle, hc, CycleCase.effect] at h
    cases h
    exact Part.kept_of_replace rfl hpc
  | run i =>
    rw [step_run hc] at h
    exact (beforeExec_keeps p hpc i s).trans (exec_keeps p h (hp i hc))

theorem keyDown_of_waiting {s : State} {x : Reg} (h : s.run = .awaitingInput x) (k : Reg) :
    keyDown k s = setRun .ready (setV x (keyCode k) (setKey k true s)) := by
  simp only [keyDown, h]

theorem keyDown_keeps (p : Part) (hp : p ∉ [.v, .keys, .run]) (k : Reg) (s : State) : p.Kept s (keyDown k s) := by
  unfold keyDown
  split <;> cases p <;> simp_all [Part.Kept]

/-! ### The timers (R25, R162, R171) -/

/-- A transaction other than a tick, a reset and a load writes a timer just where it is a step that runs the timer's writer. -/
theorem transact_timers {s t : State} {tr : Transaction} (h : transact tr s = .next t) (htick : tr ≠ .tick)
    (hreset : ∀ c, tr ≠ .reset c) (hload : ∀ bs, tr ≠ .load bs) :
    ((∀ x, cycleCase s = .run (.ldDtVx x) → tr ≠ .step) → t.dt = s.dt) ∧
      ((∀ x, cycleCase s = .run (.ldStVx x) → tr ≠ .step) → t.st = s.st) := by
  cases tr with
  | step =>
    refine ⟨fun hdt => ?_, fun hst => ?_⟩
    · refine step_keeps .dt h (by simp) (by simp) fun i hc => not_writes_dt ?_
      rintro x rfl
      exact hdt x hc rfl
    · refine step_keeps .st h (by simp) (by simp) fun i hc => not_writes_st ?_
      rintro x rfl
      exact hst x hc rfl
  | tick => exact absurd rfl htick
  | keyDown k =>
    cases h
    exact ⟨fun _ => keyDown_keeps .dt (by simp) k s, fun _ => keyDown_keeps .st (by simp) k s⟩
  | keyUp k | setMode m =>
    cases h
    exact ⟨fun _ => rfl, fun _ => rfl⟩
  | reset c => exact absurd rfl (hreset c)
  | load bs => exact absurd rfl (hload bs)

theorem sameExcept_tick (s : State) : SameExcept [.dt, .st] s (tick s) :=
  (sameExcept_setDt s _).trans (sameExcept_setSt _ _)

/-- Settles O37: the writers by the access matrix, the readers by the independence of the other instructions from `ST`. -/
theorem timersDecayOnlyByTick : Obligations.TimersDecayOnlyByTick := by
  refine ⟨fun s => ⟨toNat_decay s.dt, toNat_decay s.st, sameExcept_tick s⟩,
    fun s t tr h htick hreset hload => transact_timers h htick hreset hload,
    fun i s t h => ⟨exec_dt h, exec_st h⟩,
    fun x s => ⟨⟨_, rfl, rfl⟩, ⟨_, rfl, rfl⟩, ⟨_, rfl, getV_setV_same s x _⟩⟩,
    fun i s t b h => ⟨fun hi => exec_setSt h hi b, ?_⟩, rfl, rfl, fun c s => ⟨rfl, rfl⟩⟩
  rintro ⟨x, rfl⟩
  cases h
  rfl

theorem beforeExec_tick (i : Instr) (s : State) : beforeExec i (tick s) = tick (beforeExec i s) := by cases i <;> rfl

/-- Settles O38: the tick leaves the case of the step, and each case commutes with it. -/
theorem tickCommutesWithStep : Obligations.TickCommutesWithStep := by
  intro s t htimer h
  have hcase : cycleCase (tick s) = cycleCase s := cycleCase_congr rfl rfl rfl
  cases hc : cycleCase s with
  | idle st | fetchFault c | unknown w =>
    simp only [step, cycle, hc, hcase, CycleCase.effect] at h ⊢
    cases h
    rfl
  | run i =>
    rw [step_run hc] at h
    rw [step_run (hcase.trans hc), beforeExec_tick]
    exact exec_tick h (htimer i hc)

/-! ### The key wait (R155, R163) -/

theorem toNat_keyCode (k : Reg) : (keyCode k).toNat = k.val := by
  rw [keyCode, BitVec.toNat_ofNat]
  omega

/-- Settles O39: the run state holds the latch. -/
theorem keyWaitSetsLatch : Obligations.KeyWaitSetsLatch := by
  intro s x
  exact ⟨_, rfl, rfl, sameExcept_setRun s _⟩

theorem portKey_keyDown (k j : Reg) (s : State) : portKey j (keyDown k s) = if j = k then true else portKey j s := by
  unfold keyDown
  split
  · rw [portKey_setRun, portKey_setV, portKey_setKey]
  · rw [portKey_setKey]

/-- What a key-down does to a core that waits for it. -/
theorem keyDown_releases {s : State} {x : Reg} (h : s.run = .awaitingInput x) (k : Reg) :
    (keyDown k s).run = .ready ∧ (getV (keyDown k s) x).toNat = k.val ∧ RegsSameExcept [x] s (keyDown k s) ∧
      SameExcept [.v, .keys, .run] s (keyDown k s) := by
  refine ⟨by rw [keyDown_of_waiting h]; rfl, ?_, fun r hr => ?_, fun p hp => (keyDown_keeps p hp k s).same⟩
  · rw [keyDown_of_waiting h, getV_setRun, getV_setV_same, toNat_keyCode]
  · rw [keyDown_of_waiting h, getV_setRun, getV_setV_other _ (by simpa using hr), getV_setKey]

/-- Settles O40: the flag in either case, the release only where the core waits. -/
theorem keyDownReleasesWait : Obligations.KeyDownReleasesWait := by
  intro s k
  refine ⟨by rw [portKey_keyDown, if_pos rfl], fun j hj => by rw [portKey_keyDown, if_neg hj],
    fun x h => keyDown_releases h k, fun h => ?_⟩
  rw [keyDown_of_not_waiting h]
  exact sameExcept_setKey k true s

/-- Steps that change nothing can be left out of a run. -/
theorem runTransactions_idle_steps {s : State} (h : step s = .next s) (n : Nat) (ts : List Transaction) :
    runTransactions (List.replicate n .step ++ ts) s = runTransactions ts s := by
  induction n with
  | zero => rfl
  | succ n ih =>
    rw [List.replicate_succ, List.cons_append, runTransactions, show transact .step s = .next s from h]
    exact ih

/-- Settles O42: the step enters the wait, during which further steps are idle, and the key-down releases it. -/
theorem keyWaitEndsWithTheNextKeyDown : Obligations.KeyWaitEndsWithTheNextKeyDown := by
  intro s x k n h hd
  obtain ⟨u, hu⟩ : ∃ u, u = setRun (.awaitingInput x) (setPc (s.pc + 2) s) := ⟨_, rfl⟩
  have hstep : step s = .next u := hu ▸ step_of_decode_other h hd (by simp)
  have hwait : u.run = .awaitingInput x := by rw [hu, setRun_run]
  have hframe : SameExcept [.pc, .run] s u := hu ▸ (sameExcept_setPc s _).trans (sameExcept_setRun _ _)
  obtain ⟨hready, hcode, hregs, hsame⟩ := keyDown_releases hwait k
  refine ⟨keyDown k u, ?_, hready, hcode, ?_, by rw [portKey_keyDown, if_pos rfl], fun r hr => ?_, fun p hp => ?_⟩
  · rw [runTransactions, show transact .step s = .next u from hstep]
    exact runTransactions_idle_steps (step_of_awaitingInput hwait).1 n [.keyDown k]
  · rw [show (keyDown k u).pc = u.pc from hsame .pc (by simp), hu]
    exact toNat_advance h.2
  · exact (hregs r hr).trans (hframe .v (by simp) r)
  · by_cases hrun : p = .run
    · subst hrun
      exact hready.trans h.1.symm
    · exact (hframe.trans hsame) p (by simp_all)

/-! ### The mode (R30) -/

/-- Outcomes that differ in some observation are different. -/
theorem next_ne_next {α : Type} (f : State → α) {r : Result} {t u : State} (hr : r = .next t) (h : f t ≠ f u) : r ≠ .next u := by
  rintro rfl
  cases hr
  exact h rfl

/-- R30: each of the four in a state in which the mode shows: the shifts with `V0` = 0 and `V1` = 2 by `V0`, the block transfers of
`V0` at 0 by `I`. -/
theorem modeDependent_differs : ∀ n ∈ modeDependent, ∃ (i : Instr) (s t : State) (m : Mode), i.mnemonic = n ∧
    exec i s = .next t ∧ exec i (setMode m s) ≠ .next (setMode m t) := by
  simp only [modeDependent, List.forall_mem_cons]
  refine ⟨?shr, ?shl, ?store, ?load, by simp⟩
  case shr =>
    exact ⟨.shr 0 1, setV 1 2 State.reset, _, .legacy, rfl, rfl, next_ne_next (getV · 0) rfl (by decide)⟩
  case shl =>
    exact ⟨.shl 0 1, setV 1 2 State.reset, _, .legacy, rfl, rfl, next_ne_next (getV · 0) rfl (by decide)⟩
  case store =>
    exact ⟨.ldMemVx 0, State.reset, _, .legacy, rfl, rfl, next_ne_next State.i rfl (by decide)⟩
  case load =>
    exact ⟨.ldVxMem 0, State.reset, _, .legacy, rfl, rfl, next_ne_next State.i rfl (by decide)⟩

theorem transact_mode {s t : State} {tr : Transaction} (h : transact tr s = .next t) (hmode : ∀ m, tr ≠ .setMode m)
    (hreset : ∀ c, tr ≠ .reset c) (hload : ∀ bs, tr ≠ .load bs) : t.mode = s.mode := by
  cases tr with
  | step => exact step_keeps .mode h (by simp) (by simp) fun i _ => by simp [writtenBy]
  | tick | keyUp k =>
    cases h
    rfl
  | keyDown k =>
    cases h
    exact keyDown_keeps .mode (by simp) k s
  | setMode m => exact absurd rfl (hmode m)
  | reset c => exact absurd rfl (hreset c)
  | load bs => exact absurd rfl (hload bs)

/-- Settles O44: part by part, the lemmas above; the decision of a step's case does not look at the mode. -/
theorem modeAffectsExactlyFourInstructions : Obligations.ModeAffectsExactlyFourInstructions :=
  ⟨fun _ _ _ m hi h => exec_setMode h hi m, modeDependent_differs, fun _ _ => cycleCase_congr rfl rfl rfl,
    fun _ _ _ h => exec_mode h, fun s m => ⟨rfl, sameExcept_setMode m s⟩,
    fun _ _ _ h hmode hreset hload => transact_mode h hmode hreset hload, rfl, fun c s => resetCore_mode s c⟩

/-! ### Reset and power-on (R33, R200 to R203) -/

/-- Memory with nothing listed (R33, R58): the glyphs below 80, zero from there on. -/
theorem peek_of_mem_nil {s : State} (h : s.mem = []) :
    (∀ a, a < 80 → peek s a = glyphTable.getD a 0) ∧ (∀ a, 80 ≤ a → peek s a = 0) := by
  have hread (a : Nat) : peek s a = glyphTable.getD a 0 := by rw [peek, h]; rfl
  have hlen : glyphTable.length = 80 := rfl
  exact ⟨fun a _ => hread a, fun a ha => (hread a).trans (List.getD_eq_default _ _ (by omega))⟩

/-- Settles O45: the fields of the reset state, with `KEYS`, the oracle's count and, where it is not cleared, memory from before. -/
theorem resetSetsEverythingButKeys : Obligations.ResetSetsEverythingButKeys := by
  intro s c
  refine ⟨resetCore c s, rfl, getV_resetCore s c, rfl, rfl, rfl, rfl, rfl, fun a b => fbGet_clear a b, rfl, rfl, fun p hp => ?_,
    ?_, ?_⟩
  · cases p with
    | keys => exact fun _ => rfl
    | draws => rfl
    | _ => exact absurd hp (by simp)
  · rintro rfl
    exact peek_of_mem_nil rfl
  · rintro rfl a
    rfl

/-- Settles O46: after a reset the core is ready and `PC` can be fetched from. -/
theorem executionBeginsAtEntry : Obligations.ExecutionBeginsAtEntry := by
  refine ⟨fun s a => rfl, fun s c i => ⟨rfl, fun hd => cycleCase_of_decode ⟨rfl, ?_⟩ hd⟩⟩
  rw [resetCore_pc]
  decide

/-- Two states of no key held have the same `KEYS`. -/
theorem keys_eq_of_released {s : State} (h : ∀ k, portKey k s = false) : s.keys = State.reset.keys := by
  apply Vector.ext
  intro k hk
  rw [show s.keys[k] = false from h ⟨k, hk⟩]
  simp [State.reset]

/-- Settles O48: the fields of `State.reset`, and the clearing reset of a state that has its keys and its count of draws. -/
theorem powerOnState : Obligations.PowerOnState := by
  obtain ⟨hglyphs, hzero⟩ := peek_of_mem_nil (show State.reset.mem = [] from rfl)
  refine ⟨by decide, rfl, rfl, rfl, rfl, rfl, fun a c => fbGet_clear a c, by decide, rfl, rfl, hglyphs, hzero,
    fun s hkeys hdraws => ?_⟩
  rw [resetCore, keys_eq_of_released hkeys, hdraws]
  rfl

end Sys2Proof.Machine
end
